-- ==== Sys2Proof/Word.lean ====
section
/-! DEFINITION. The bit-vector types of the unit's ports (spec/10_state.md R22, spec/00_scope.md R8). Bit 0 is the least
significant bit. Nothing here computes: the operations on words stand in Sys2Proof/Machine/Ops.lean. -/

namespace Sys2Proof

/-- A 64-bit operand or result word (R9 `Word64`; ports A, B and RESULT of R22). -/
abbrev Word := BitVec 64

/-- The 8-bit command word of the CMD port (R22, R50). -/
abbrev CmdWord := BitVec 8

/-- A 4-bit field: FAM or FN of a command word (R50), or the STATUS port (R22). -/
abbrev Nibble := BitVec 4

end Sys2Proof
end

