-- ==== Sys2Proof/Config.lean ====
section
/-! DEFINITION. What an instance of the unit fixes: the constants of spec/00_scope.md R6 and its three open parameters. The
open parameters are plain data (`Params`); a state carries them so that every claim can range over all their values (log
entry 1). The spec leaves no value free, so there is no opaque constant here. -/

namespace Sys2Proof

/-- `WORD_WIDTH` (R6). -/
def wordWidth : Nat := 64

/-- `SCALAR_WIDTH` (R6): a scalar is an unsigned number of this many bits (R29). -/
def scalarWidth : Nat := 64

/-- `CMD_WIDTH` (R6). -/
def cmdWidth : Nat := 8

/-- `STATUS_WIDTH` (R6). -/
def statusWidth : Nat := 4

/-- `SIGN` (R6): 2^63, the weight of the sign bit. -/
def signBit : Nat := 0x8000000000000000

/-- `MAX` (R6): 2^63 - 1, the largest representable magnitude. -/
def maxMag : Nat := 0x7FFFFFFFFFFFFFFF

/-- Negative zero (R13): sign bit set, magnitude zero; the one word that is not canonical. -/
def negZero : Word := 0x8000000000000000#64

/-- The spec's own label for the operation set (R1). -/
def identityString : String := "TSM-SI64-CORE"

/-- `NONCANONICAL_INPUT` (R6): what the input stage `inS` (R74) does with negative zero on a signed port. -/
inductive NoncanonicalInput where
  /-- Read it as 0 (the default). -/
  | normalize
  /-- Give the command no meaning. -/
  | refuse
deriving DecidableEq, Repr

/-- `ILLEGAL_COMMAND_POLICY` (R6): what an illegal CMD value gets (R176). -/
inductive IllegalCommandPolicy where
  /-- STATUS = 7 and RESULT = 0 (the default). -/
  | status
  /-- No meaning and no response. -/
  | refuse
deriving DecidableEq, Repr

/-- The three open parameters of R6, fixed at instantiation and written by no command (R30, R190). -/
structure Params where
  /-- `INCLUDE_AUX_OPS`: the conversion and comparison commands are present. -/
  includeAux : Bool
  /-- `NONCANONICAL_INPUT`. -/
  noncanonical : NoncanonicalInput
  /-- `ILLEGAL_COMMAND_POLICY`. -/
  illegalPolicy : IllegalCommandPolicy
deriving DecidableEq, Repr

/-- The defaults that R6 names. -/
def Params.default : Params :=
  { includeAux := true, noncanonical := .normalize, illegalPolicy := .status }

end Sys2Proof
end

