-- ==== Sys2Proof/Machine/State.lean ====
section
/-! DEFINITION. The state of the model. The unit itself keeps nothing between commands (spec/10_state.md R20, R21, R23, R30,
R31; spec/20_memory.md R40): what a state holds is the instance's parameters, the five ports of R22, and the host's own lists
that R32 lets a model of a command sequence carry. There is no register, flag, program counter, mode or memory. -/

namespace Sys2Proof.Machine

/-- The error kinds of spec/60_exceptions.md R170: the source's six, and the spec's own IllegalCommand. -/
inductive ErrorKind where
  | conversionOverflow
  | conversionUnderflow
  | addOverflow
  | subUnderflow
  | mulOverflow
  | divideByZero
  | illegalCommand
deriving DecidableEq, Repr

/-- One response (R22): `Ok(v)` or `Err(k)`. How each appears on STATUS and RESULT stands in Machine/Flags.lean. -/
inductive Response where
  | ok (v : Word)
  | err (k : ErrorKind)
deriving DecidableEq, Repr

/-- One command: the tuple (CMD, A, B) the host drives (R22). -/
structure Command where
  /-- Port CMD. -/
  cmd : CmdWord
  /-- Port A. -/
  a : Word
  /-- Port B. -/
  b : Word
deriving DecidableEq, Repr

/-- What the host does next at the interface (R45, R191, R194). -/
inductive HostAction where
  /-- Drive a command and hold it until its response (R194). -/
  | issue (c : Command)
  /-- Reset the unit while it is idle (R191). -/
  | reset
  /-- Drive a command; reset arrives while it is in progress, so it produces no response (R191), and no
  refusal either (DESIGN CHOICE, log entry 17). -/
  | resetDuring (c : Command)
deriving DecidableEq, Repr

/-- The model's state: parameters, ports and the host's lists. -/
structure State where
  /-- The instance's parameters (R6): fixed, written by no command and by no reset (R30, R190). -/
  params : Params
  /-- Port CMD, as the host last drove it (R22). -/
  cmd : CmdWord
  /-- Port A, as the host last drove it (R22). -/
  a : Word
  /-- Port B, as the host last drove it (R22). -/
  b : Word
  /-- Ports STATUS and RESULT: the response to the last command completed since reset. `none`: no response exists (R190).
  That it stays readable between commands is a DESIGN CHOICE (log entry 16). -/
  response : Option Response
  /-- The host's actions still to come, the next first (R32, R45). -/
  pending : List HostAction
  /-- The host's list of completed commands and the responses it received, the oldest first (R32). -/
  transcript : List (Command × Response)
deriving DecidableEq, Repr

/-- The unit raises no trap and has nothing that stops it: every failure is a response (R177, R178). So there is no fault at
all, and this type has no constructor. -/
inductive Fault : Type
deriving DecidableEq, Repr

/-- Why the model gives a command no meaning. A refusal is no STATUS code and no error kind of the unit (R74, R175, R176). -/
inductive Refusal where
  /-- Raised by an arm of `exec` whose instruction has no meaning yet; no arm raises it. Safe. -/
  | notModelled (mnemonic : String)
  /-- Raised by the input stage `inS` (R74) on negative zero at a signed port, only under `NONCANONICAL_INPUT = refuse`. Safe:
  the spec defines no response there. -/
  | noncanonicalOperand
  /-- Raised on an illegal CMD value (R176), only under `ILLEGAL_COMMAND_POLICY = refuse`. Safe: the spec defines no
  response there. -/
  | illegalCommand
deriving DecidableEq, Repr

/-- The machine right after reset (R190): the default parameters (R6; log entry 1), no response, no host action yet. The
input ports belong to the host; their value here is a DESIGN CHOICE (log entry 2) that no step reads. -/
def State.reset : State :=
  { params := Params.default
    cmd := 0#8
    a := 0#64
    b := 0#64
    response := none
    pending := []
    transcript := [] }

end Sys2Proof.Machine
end

