-- ==== Sys2Proof/Syntax.lean ====
section
/-! DEFINITION. The commands of the unit, one constructor for each row of spec/opcode_table.json (spec/30_encoding.md R55),
and the columns of that table: family, operand form, result kind, mnemonic. A command word carries no operand bits (R53):
the operands are on ports A and B, so no constructor has an argument. -/

namespace Sys2Proof

/-- The 24 commands of R55, in the order of the table. -/
inductive Instr where
  | norm | zero | one | iszero | isneg | neg | abs
  | fromu | negfromu | tou
  | cmp | eq | lt | gt | lte | gte
  | adds | subs | muls | divs
  | addp | subp | mulp | divp
deriving DecidableEq, Repr

/-- The five assigned families (R51). -/
inductive Family where
  /-- FAM 0x0: encoding and normalization. -/
  | normalization
  /-- FAM 0x1: conversion (auxiliary). -/
  | conversion
  /-- FAM 0x2: comparison (auxiliary). -/
  | comparison
  /-- FAM 0x3: scalar arithmetic. -/
  | scalar
  /-- FAM 0x4: value-pair arithmetic. -/
  | pair
deriving DecidableEq, Repr

/-- The six sub-blocks of the CORE (R1). -/
inductive SubBlock where
  | normalizer | adder | subtractor | multiplier | divider | overflowDetector
deriving DecidableEq, Repr

/-- How one operand port is read (R52). -/
inductive PortForm where
  /-- The port is ignored: the response does not depend on it. -/
  | ignored
  /-- The raw word, no input stage. -/
  | raw
  /-- A signed word, through `inS` (R74). -/
  | signed
  /-- An unsigned scalar (R29). -/
  | scalar
deriving DecidableEq, Repr

/-- The six operand forms of R52. -/
inductive OperandForm where
  | none | raw | s | u | su | ss
deriving DecidableEq, Repr

/-- What RESULT holds when STATUS = OK (R54). -/
inductive ResultKind where
  | signed | unsigned | bool | ordering
deriving DecidableEq, Repr

/-- The family of each command (R55). -/
def Instr.family : Instr → Family
  | .norm => .normalization
  | .zero => .normalization
  | .one => .normalization
  | .iszero => .normalization
  | .isneg => .normalization
  | .neg => .normalization
  | .abs => .normalization
  | .fromu => .conversion
  | .negfromu => .conversion
  | .tou => .conversion
  | .cmp => .comparison
  | .eq => .comparison
  | .lt => .comparison
  | .gt => .comparison
  | .lte => .comparison
  | .gte => .comparison
  | .adds => .scalar
  | .subs => .scalar
  | .muls => .scalar
  | .divs => .scalar
  | .addp => .pair
  | .subp => .pair
  | .mulp => .pair
  | .divp => .pair

/-- The sub-blocks a family uses (R51). The comparison family is none of the six. -/
def Family.subBlocks : Family → List SubBlock
  | .normalization => [.normalizer]
  | .conversion => [.normalizer, .overflowDetector]
  | .comparison => []
  | .scalar => [.adder, .subtractor, .multiplier, .divider, .overflowDetector]
  | .pair => [.adder, .subtractor, .multiplier, .divider, .overflowDetector]

/-- The auxiliary families, present only when `INCLUDE_AUX_OPS` holds (R2, R6, R56). -/
def Family.isAux : Family → Bool
  | .normalization => false
  | .conversion => true
  | .comparison => true
  | .scalar => false
  | .pair => false

/-- A command of an auxiliary family. -/
def Instr.isAux (i : Instr) : Bool := i.family.isAux

/-- The operand form of each command (R52, R55). -/
def Instr.form : Instr → OperandForm
  | .norm => .raw
  | .zero => .none
  | .one => .none
  | .iszero => .s
  | .isneg => .s
  | .neg => .s
  | .abs => .s
  | .fromu => .u
  | .negfromu => .u
  | .tou => .s
  | .cmp => .ss
  | .eq => .ss
  | .lt => .ss
  | .gt => .ss
  | .lte => .ss
  | .gte => .ss
  | .adds => .su
  | .subs => .su
  | .muls => .su
  | .divs => .su
  | .addp => .ss
  | .subp => .ss
  | .mulp => .ss
  | .divp => .ss

/-- How a form reads port A (R52). -/
def OperandForm.portA : OperandForm → PortForm
  | .none => .ignored
  | .raw => .raw
  | .s => .signed
  | .u => .scalar
  | .su => .signed
  | .ss => .signed

/-- How a form reads port B (R52). -/
def OperandForm.portB : OperandForm → PortForm
  | .none => .ignored
  | .raw => .ignored
  | .s => .ignored
  | .u => .ignored
  | .su => .scalar
  | .ss => .signed

/-- The result kind of each command (R54, R55). -/
def Instr.resultKind : Instr → ResultKind
  | .norm => .signed
  | .zero => .signed
  | .one => .signed
  | .iszero => .bool
  | .isneg => .bool
  | .neg => .signed
  | .abs => .signed
  | .fromu => .signed
  | .negfromu => .signed
  | .tou => .unsigned
  | .cmp => .ordering
  | .eq => .bool
  | .lt => .bool
  | .gt => .bool
  | .lte => .bool
  | .gte => .bool
  | .adds => .signed
  | .subs => .signed
  | .muls => .signed
  | .divs => .signed
  | .addp => .signed
  | .subp => .signed
  | .mulp => .signed
  | .divp => .signed

/-- The mnemonic of each command, in capitals (R55, R58). -/
def Instr.mnemonic : Instr → List Char
  | .norm => ['N', 'O', 'R', 'M']
  | .zero => ['Z', 'E', 'R', 'O']
  | .one => ['O', 'N', 'E']
  | .iszero => ['I', 'S', 'Z', 'E', 'R', 'O']
  | .isneg => ['I', 'S', 'N', 'E', 'G']
  | .neg => ['N', 'E', 'G']
  | .abs => ['A', 'B', 'S']
  | .fromu => ['F', 'R', 'O', 'M', 'U']
  | .negfromu => ['N', 'E', 'G', 'F', 'R', 'O', 'M', 'U']
  | .tou => ['T', 'O', 'U']
  | .cmp => ['C', 'M', 'P']
  | .eq => ['E', 'Q']
  | .lt => ['L', 'T']
  | .gt => ['G', 'T']
  | .lte => ['L', 'T', 'E']
  | .gte => ['G', 'T', 'E']
  | .adds => ['A', 'D', 'D', 'S']
  | .subs => ['S', 'U', 'B', 'S']
  | .muls => ['M', 'U', 'L', 'S']
  | .divs => ['D', 'I', 'V', 'S']
  | .addp => ['A', 'D', 'D', 'P']
  | .subp => ['S', 'U', 'B', 'P']
  | .mulp => ['M', 'U', 'L', 'P']
  | .divp => ['D', 'I', 'V', 'P']

/-- Every command, in table order. -/
def Instr.all : List Instr :=
  [.norm, .zero, .one, .iszero, .isneg, .neg, .abs, .fromu, .negfromu, .tou, .cmp, .eq, .lt, .gt, .lte, .gte,
   .adds, .subs, .muls, .divs, .addp, .subp, .mulp, .divp]

end Sys2Proof
end

