-- ==== Sys2Proof/WellFormed.lean ====
section
/-! DEFINITION. Which commands an instance of the unit has. A command has no operand bits (R53), so the only check is
whether the instance's parameters include it (spec/30_encoding.md R56, spec/00_scope.md R6). -/

namespace Sys2Proof

/-- A command is well formed for an instance when it is not auxiliary, or the instance includes the auxiliary commands
(`INCLUDE_AUX_OPS`, R6 and R56). -/
def Instr.wellFormed (p : Params) (i : Instr) : Bool := !i.isAux || p.includeAux

end Sys2Proof
end

