-- ==== Sys2Proof/Decode.lean ====
section
/-! DEFINITION. The command encoding of spec/30_encoding.md: the decoder, total on every 8-bit command word and rejecting by
name (R50, R51, R55, R56), and after it the encoder. -/

namespace Sys2Proof

/-- Why a command word is illegal (R56). All three get the same treatment (R176); the names are the model's. -/
inductive IllegalCmd where
  /-- FAM is 0x5 to 0xF (R51 'unassigned'). -/
  | unassignedFamily
  /-- FAM is assigned, but no command of the family has this FN (R55). -/
  | unassignedFunction
  /-- An auxiliary command of an instance with `INCLUDE_AUX_OPS = false` (R56). -/
  | auxiliaryAbsent
deriving DecidableEq, Repr

/-- FAM = CMD[7:4] (R50). -/
def famField (w : CmdWord) : Nibble := w.extractLsb' 4 4

/-- FN = CMD[3:0] (R50). -/
def fnField (w : CmdWord) : Nibble := w.extractLsb' 0 4

/-- The family a FAM value selects (R51). -/
def decodeFamily (fam : Nibble) : Option Family :=
  match fam.toNat with
  | 0x0 => some .normalization
  | 0x1 => some .conversion
  | 0x2 => some .comparison
  | 0x3 => some .scalar
  | 0x4 => some .pair
  | _ => none

/-- Family 0x0 (R55). -/
def decodeNormalization (fn : Nibble) : Option Instr :=
  match fn.toNat with
  | 0x0 => some .norm
  | 0x1 => some .zero
  | 0x2 => some .one
  | 0x3 => some .iszero
  | 0x4 => some .isneg
  | 0x5 => some .neg
  | 0x6 => some .abs
  | _ => none

/-- Family 0x1 (R55). -/
def decodeConversion (fn : Nibble) : Option Instr :=
  match fn.toNat with
  | 0x0 => some .fromu
  | 0x1 => some .negfromu
  | 0x2 => some .tou
  | _ => none

/-- Family 0x2 (R55). -/
def decodeComparison (fn : Nibble) : Option Instr :=
  match fn.toNat with
  | 0x0 => some .cmp
  | 0x1 => some .eq
  | 0x2 => some .lt
  | 0x3 => some .gt
  | 0x4 => some .lte
  | 0x5 => some .gte
  | _ => none

/-- Family 0x3: FN[1:0] selects the operator and FN[3:2] must be 0 (R55). -/
def decodeScalar (fn : Nibble) : Option Instr :=
  match fn.toNat with
  | 0x0 => some .adds
  | 0x1 => some .subs
  | 0x2 => some .muls
  | 0x3 => some .divs
  | _ => none

/-- Family 0x4: FN[1:0] selects the operator and FN[3:2] must be 0 (R55). -/
def decodePair (fn : Nibble) : Option Instr :=
  match fn.toNat with
  | 0x0 => some .addp
  | 0x1 => some .subp
  | 0x2 => some .mulp
  | 0x3 => some .divp
  | _ => none

/-- The command that FN selects within a family (R55). -/
def decodeFunction (f : Family) (fn : Nibble) : Option Instr :=
  match f with
  | .normalization => decodeNormalization fn
  | .conversion => decodeConversion fn
  | .comparison => decodeComparison fn
  | .scalar => decodeScalar fn
  | .pair => decodePair fn

/-- The command a CMD value selects, or why it is illegal (R55, R56). -/
def decode (p : Params) (w : CmdWord) : Except IllegalCmd Instr :=
  match decodeFamily (famField w) with
  | none => .error .unassignedFamily
  | some f =>
    match decodeFunction f (fnField w) with
    | none => .error .unassignedFunction
    | some i => if i.wellFormed p then .ok i else .error .auxiliaryAbsent

/-- The FAM value of a family (R51). -/
def famCode : Family → Nibble
  | .normalization => 0x0#4
  | .conversion => 0x1#4
  | .comparison => 0x2#4
  | .scalar => 0x3#4
  | .pair => 0x4#4

/-- The FN value of a command within its family (R55). -/
def fnCode : Instr → Nibble
  | .norm => 0x0#4
  | .zero => 0x1#4
  | .one => 0x2#4
  | .iszero => 0x3#4
  | .isneg => 0x4#4
  | .neg => 0x5#4
  | .abs => 0x6#4
  | .fromu => 0x0#4
  | .negfromu => 0x1#4
  | .tou => 0x2#4
  | .cmp => 0x0#4
  | .eq => 0x1#4
  | .lt => 0x2#4
  | .gt => 0x3#4
  | .lte => 0x4#4
  | .gte => 0x5#4
  | .adds => 0x0#4
  | .subs => 0x1#4
  | .muls => 0x2#4
  | .divs => 0x3#4
  | .addp => 0x0#4
  | .subp => 0x1#4
  | .mulp => 0x2#4
  | .divp => 0x3#4

/-- The command word of a command: FAM in bits 7:4, FN in bits 3:0 (R50). -/
def encode (i : Instr) : CmdWord := famCode i.family ++ fnCode i

/-- What the decoder, under the default parameters, reads from a row of the opcode table: the row is one 8-bit command word,
and a row of another size or a number that does not fit in it is no command (R50). -/
def decodeTableWord (nbits w : Nat) : Option Instr :=
  if nbits = cmdWidth ∧ w < 2 ^ cmdWidth then
    match decode Params.default (BitVec.ofNat 8 w) with
    | .ok i => some i
    | .error _ => none
  else none

end Sys2Proof
end

