-- ==== Sys2Proof/Machine/Flags.lean ====
section
/-! DEFINITION. The unit has no flags (spec/10_state.md R23): the only status is port STATUS. This file says how a response
appears on the STATUS and RESULT ports (spec/60_exceptions.md R170 to R172) and how boolean and ordering answers are written
on RESULT (spec/30_encoding.md R54, spec/42_comparison.md R100). -/

namespace Sys2Proof.Machine

/-- STATUS = 0: OK (R170). -/
def statusOk : Nibble := 0#4

/-- The STATUS code of an error kind (R170). -/
def statusCode : ErrorKind → Nibble
  | .conversionOverflow => 1#4
  | .conversionUnderflow => 2#4
  | .addOverflow => 3#4
  | .subUnderflow => 4#4
  | .mulOverflow => 5#4
  | .divideByZero => 6#4
  | .illegalCommand => 7#4

/-- What a response puts on port STATUS (R171, R172). -/
def statusOf : Response → Nibble
  | .ok _ => statusOk
  | .err k => statusCode k

/-- What a response puts on port RESULT: the word, or 0 on a failure (R171, R172). -/
def resultOf : Response → Word
  | .ok v => v
  | .err _ => 0#64

/-- Port STATUS. No value exists before the first response (R190), so there is nothing to read there. -/
def statusPort (s : State) : Option Nibble := s.response.map statusOf

/-- Port RESULT. No value exists before the first response (R190), so there is nothing to read there. -/
def resultPort (s : State) : Option Word := s.response.map resultOf

/-- A boolean answer on RESULT: 1 for true, 0 for false (R54). -/
def boolWord (b : Bool) : Word := if b then 1#64 else 0#64

/-- The three-valued ordering of R100 and R101. -/
inductive CmpResult where
  | equal
  | less
  | greater
deriving DecidableEq, Repr

/-- The ordering codes of R100: Equal = 0, Less = 1, Greater = 2. -/
def orderingCode : CmpResult → Word
  | .equal => 0#64
  | .less => 1#64
  | .greater => 2#64

end Sys2Proof.Machine
end

