-- ==== Sys2Proof/Machine/Ops.lean ====
section
/-! DEFINITION. The shared operations: the helper functions of spec/40_normalizer.md section 1 on words, the value a word
denotes (spec/00_scope.md R14), completing a command with a result or an error kind (spec/60_exceptions.md R171, R172), and
the host's side of a command: driving the ports, recording the response, reset (R191). The unit takes no exception and has
no return from one (R178, R179): raising an error kind is an ordinary response. -/

namespace Sys2Proof.Machine

/-- `normalize` (R70). -/
def normalize (w : Word) : Word := if w = negZero then 0#64 else w

/-- `isNeg` (R71): unsigned comparison of the pattern with 2^63. -/
def isNeg (w : Word) : Bool := decide (signBit < w.toNat)

/-- `mag` (R72). -/
def mag (w : Word) : Nat := if isNeg w then w.toNat - signBit else w.toNat

/-- `compose` (R73). Its precondition m ≤ MAX is met by every caller through an overflow-detector check (R120). -/
def compose (neg : Bool) (m : Nat) : Word :=
  normalize (BitVec.ofNat 64 (if neg then signBit + m else m))

/-- `val` (R14): the integer that a canonical word denotes. -/
def val (w : Word) : Int := if isNeg w then -(mag w : Int) else (mag w : Int)

/-- The canonical word of an integer in [-MAX, MAX] (R15, R59): n if n ≥ 0, else 2^63 + |n|. -/
def wordOfInt (n : Int) : Word :=
  if 0 ≤ n then BitVec.ofNat 64 n.natAbs else BitVec.ofNat 64 (signBit + n.natAbs)

/-- A command completes with this response on STATUS and RESULT; nothing else changes (R22, R28). -/
def respond (r : Response) (s : State) : State := { s with response := some r }

/-- `return v` (R10, R171). -/
def returnWord (v : Word) : Response := .ok v

/-- `raise k()` (R10, R172): the one way a command fails. No state is saved and nothing is entered (R178). -/
def raiseKind (k : ErrorKind) : Response := .err k

/-- The host drives CMD, A and B with the values of a command (R194); `rest` is what it does afterwards. -/
def driveCommand (c : Command) (rest : List HostAction) (s : State) : State :=
  { s with cmd := c.cmd, a := c.a, b := c.b, pending := rest }

/-- The host receives the response to the command on the ports and adds both to its list (R32). -/
def recordResponse (s : State) : State :=
  match s.response with
  | some r => { s with transcript := s.transcript ++ [(⟨s.cmd, s.a, s.b⟩, r)] }
  | none => s

/-- Reset (R190, R191): no response exists until the next command completes; the parameters are unchanged. The host's lists
and the input ports are the host's, and reset does not touch them. -/
def resetUnit (s : State) : State := { s with response := none }

/-- What the next step has to do. -/
inductive Fetched where
  /-- No command is driven: the unit is idle (R191). -/
  | idle
  /-- A host action that the unit answers with no response. -/
  | quiet (t : State)
  /-- A command is on the ports of `t`. -/
  | command (t : State)
deriving DecidableEq, Repr

/-- Take the host's next action: commands are taken one at a time in the order the host issues them (R45). A command in
progress when reset arrives is not decoded, so one that would be refused is not refused and the run goes on: a DESIGN CHOICE
(log entry 17), since the spec does not say whether the reset or the refusal wins. -/
def fetch (s : State) : Fetched :=
  match s.pending with
  | [] => .idle
  | .issue c :: rest => .command (driveCommand c rest s)
  | .reset :: rest => .quiet (resetUnit { s with pending := rest })
  | .resetDuring c :: rest => .quiet (resetUnit (driveCommand c rest s))

/-- An illegal command (R176): its operands are not read. -/
def illegalCommand (s : State) : Host.Outcome State Fault Refusal :=
  match s.params.illegalPolicy with
  | .status => .next (respond (raiseKind .illegalCommand) s)
  | .refuse => .refused .illegalCommand

/-- Decode the command on port CMD (R175 check 1). -/
def decodePort (s : State) : Except IllegalCmd Instr := decode s.params s.cmd

/-- The end of a command: its response reaches the host before the next command is taken (R45). A refused command has no
response (R175). -/
def finish (o : Host.Outcome State Fault Refusal) : Host.Outcome State Fault Refusal :=
  match o with
  | .next t => .next (recordResponse t)
  | .fault r => .fault r
  | .refused r => .refused r

/-- The host puts one command word before everything else it has to issue, with the operand ports left as they are. -/
def issueWord (w : CmdWord) (s : State) : State :=
  { s with pending := .issue ⟨w, s.a, s.b⟩ :: s.pending }

end Sys2Proof.Machine
end

