-- ==== Sys2Proof/Machine/Operands.lean ====
section
/-! DEFINITION. The six operand forms of spec/30_encoding.md R52. Each form reads its ports, gives the operands to the
command's own rule and completes with the response that rule answers. A signed port goes through `inS` (R74), a scalar port
is read as an unsigned number (R29), a port the form does not name is not read. -/

namespace Sys2Proof.Machine

/-- `inS` (R74), the signed-operand input stage; `none` is REFUSE. -/
def inS (p : Params) (w : Word) : Option Word :=
  match p.noncanonical with
  | .normalize => some (normalize w)
  | .refuse => if w = negZero then none else some w

/-- A scalar operand (R29): the whole word as an unsigned number. -/
def scalar (w : Word) : Nat := w.toNat

/-- Form `none`: no port is read. -/
def formNone (r : Response) (s : State) : Host.Outcome State Fault Refusal :=
  .next (respond r s)

/-- Form `raw`: A as it stands. -/
def formRaw (f : Word → Response) (s : State) : Host.Outcome State Fault Refusal :=
  .next (respond (f s.a) s)

/-- Form `s`: A through `inS`. -/
def formS (f : Word → Response) (s : State) : Host.Outcome State Fault Refusal :=
  match inS s.params s.a with
  | some a => .next (respond (f a) s)
  | none => .refused .noncanonicalOperand

/-- Form `u`: A as a scalar. -/
def formU (f : Nat → Response) (s : State) : Host.Outcome State Fault Refusal :=
  .next (respond (f (scalar s.a)) s)

/-- Form `s,u`: A through `inS`, B as a scalar. -/
def formSU (f : Word → Nat → Response) (s : State) : Host.Outcome State Fault Refusal :=
  match inS s.params s.a with
  | some a => .next (respond (f a (scalar s.b)) s)
  | none => .refused .noncanonicalOperand

/-- Form `s,s`: A and B through `inS`. -/
def formSS (f : Word → Word → Response) (s : State) : Host.Outcome State Fault Refusal :=
  match inS s.params s.a, inS s.params s.b with
  | some a, some b => .next (respond (f a b) s)
  | _, _ => .refused .noncanonicalOperand

end Sys2Proof.Machine
end

