-- ==== Sys2Proof/Machine/Comparison.lean ====
section
/-! DEFINITION. Family 0x2, the comparison commands (spec/42_comparison.md R100 to R107). -/

namespace Sys2Proof.Machine

/-- `cmp` (R101), for canonical words. -/
def cmpWords (a b : Word) : CmpResult :=
  if a = b then .equal
  else if !isNeg a && !isNeg b then (if mag b < mag a then .greater else .less)
  else if isNeg a && isNeg b then (if mag b < mag a then .less else .greater)
  else if !isNeg a then .greater
  else .less

/-- CMP's pseudocode (R102). -/
def cmpResponse (a b : Word) : Response := returnWord (orderingCode (cmpWords a b))

/-- CMP (R102): form `s,s`. -/
def execCmp (s : State) : Host.Outcome State Fault Refusal := formSS cmpResponse s

/-- EQ's pseudocode (R103): bit equality. -/
def eqResponse (a b : Word) : Response := returnWord (boolWord (decide (a = b)))

/-- EQ (R103): form `s,s`. -/
def execEq (s : State) : Host.Outcome State Fault Refusal := formSS eqResponse s

/-- LT's pseudocode (R104). -/
def ltResponse (a b : Word) : Response := returnWord (boolWord (decide (cmpWords a b = .less)))

/-- LT (R104): form `s,s`. -/
def execLt (s : State) : Host.Outcome State Fault Refusal := formSS ltResponse s

/-- GT's pseudocode (R105). -/
def gtResponse (a b : Word) : Response := returnWord (boolWord (decide (cmpWords a b = .greater)))

/-- GT (R105): form `s,s`. -/
def execGt (s : State) : Host.Outcome State Fault Refusal := formSS gtResponse s

/-- LTE's pseudocode (R106). -/
def lteResponse (a b : Word) : Response := returnWord (boolWord (decide (cmpWords a b ≠ .greater)))

/-- LTE (R106): form `s,s`. -/
def execLte (s : State) : Host.Outcome State Fault Refusal := formSS lteResponse s

/-- GTE's pseudocode (R107). -/
def gteResponse (a b : Word) : Response := returnWord (boolWord (decide (cmpWords a b ≠ .less)))

/-- GTE (R107): form `s,s`. -/
def execGte (s : State) : Host.Outcome State Fault Refusal := formSS gteResponse s

end Sys2Proof.Machine
end

