-- ==== Sys2Proof/Machine/Overflow.lean ====
section
/-! DEFINITION. The overflow_detector sub-block (spec/43_overflow_detector.md): its predicates, evaluated exactly before
anything is computed (R120), and the table of the error kind that a failed range check raises (R119). -/

namespace Sys2Proof.Machine

/-- `fitsMag` (R115). -/
def fitsMag (v : Nat) : Bool := decide (v ≤ maxMag)

/-- `addFits` (R116): m ≤ MAX − s evaluated in `Int`, so it fails for every m when s > MAX. -/
def addFits (m s : Nat) : Bool := decide ((m : Int) ≤ (maxMag : Int) - (s : Int))

/-- `mulFits` (R117): by floor division, before the multiplication. -/
def mulFits (m s : Nat) : Bool := decide (m = 0 ∨ s ≤ maxMag / m)

/-- `nonZero` (R118). -/
def nonZero (d : Nat) : Bool := decide (d ≠ 0)

/-- The commands with a range check: the rows of R119's table. -/
inductive RangeOp where
  | adds | subs | addp | subp | muls | mulp | fromu | negfromu
deriving DecidableEq, Repr

/-- The sign of the exact result that does not fit (R119). -/
inductive RangeDir where
  /-- Exact result > +MAX. -/
  | pos
  /-- Exact result < −MAX. -/
  | neg
deriving DecidableEq, Repr

/-- `rangeKind` (R119); `none` is 'cannot occur'. The commands' own rules raise these kinds branch by branch, as their
pseudocode does. -/
def rangeKind : RangeOp → RangeDir → Option ErrorKind
  | .adds, .pos => some .addOverflow
  | .adds, .neg => none
  | .subs, .pos => none
  | .subs, .neg => some .subUnderflow
  | .addp, .pos => some .addOverflow
  | .addp, .neg => some .subUnderflow
  | .subp, .pos => some .addOverflow
  | .subp, .neg => some .subUnderflow
  | .muls, .pos => some .mulOverflow
  | .muls, .neg => some .mulOverflow
  | .mulp, .pos => some .mulOverflow
  | .mulp, .neg => some .mulOverflow
  | .fromu, .pos => some .conversionOverflow
  | .fromu, .neg => some .conversionOverflow
  | .negfromu, .pos => some .conversionOverflow
  | .negfromu, .neg => some .conversionOverflow

end Sys2Proof.Machine
end

