-- ==== Sys2Proof/Machine/Conversion.lean ====
section
/-! DEFINITION. Family 0x1, the conversion commands (spec/41_conversion.md R90 to R92). -/

namespace Sys2Proof.Machine

/-- FROMU's pseudocode (R90). -/
def fromuResponse (u : Nat) : Response :=
  if !fitsMag u then raiseKind .conversionOverflow else returnWord (compose false u)

/-- FROMU (R90): form `u`. -/
def execFromu (s : State) : Host.Outcome State Fault Refusal := formU fromuResponse s

/-- NEGFROMU's pseudocode (R91; spec/90_conflicts.md C1: it fails as FROMU does). -/
def negfromuResponse (u : Nat) : Response :=
  if !fitsMag u then raiseKind .conversionOverflow else returnWord (compose true u)

/-- NEGFROMU (R91): form `u`. -/
def execNegfromu (s : State) : Host.Outcome State Fault Refusal := formU negfromuResponse s

/-- TOU's pseudocode (R92). -/
def touResponse (a : Word) : Response :=
  if isNeg a then raiseKind .conversionUnderflow else returnWord a

/-- TOU (R92): form `s`. -/
def execTou (s : State) : Host.Outcome State Fault Refusal := formS touResponse s

end Sys2Proof.Machine
end

