-- ==== Sys2Proof/Machine/Normalizer.lean ====
section
/-! DEFINITION. Family 0x0, the sign_magnitude_normalizer's commands (spec/40_normalizer.md R75 to R81). For each command,
the response its pseudocode gives for its operands, and then its meaning. -/

namespace Sys2Proof.Machine

/-- NORM's pseudocode (R75). -/
def normResponse (a : Word) : Response := returnWord (normalize a)

/-- NORM (R75): form `raw`. -/
def execNorm (s : State) : Host.Outcome State Fault Refusal := formRaw normResponse s

/-- ZERO (R76): form `none`. -/
def execZero (s : State) : Host.Outcome State Fault Refusal := formNone (returnWord 0x0000000000000000#64) s

/-- ONE (R77): form `none`. -/
def execOne (s : State) : Host.Outcome State Fault Refusal := formNone (returnWord 0x0000000000000001#64) s

/-- ISZERO's pseudocode (R78). -/
def iszeroResponse (a : Word) : Response := returnWord (boolWord (decide (a = 0#64)))

/-- ISZERO (R78): form `s`. -/
def execIszero (s : State) : Host.Outcome State Fault Refusal := formS iszeroResponse s

/-- ISNEG's pseudocode (R79). -/
def isnegResponse (a : Word) : Response := returnWord (boolWord (isNeg a))

/-- ISNEG (R79): form `s`. -/
def execIsneg (s : State) : Host.Outcome State Fault Refusal := formS isnegResponse s

/-- The sign flip of NEG's pseudocode (R80), computed exactly before it is narrowed (R9). -/
def negateWord (a : Word) : Word :=
  if a = 0#64 then 0#64
  else if a.getLsbD 63 = false then normalize (BitVec.ofNat 64 (a.toNat + signBit))
  else normalize (BitVec.ofNat 64 (a.toNat - signBit))

/-- NEG's pseudocode (R80). -/
def negResponse (a : Word) : Response := returnWord (negateWord a)

/-- NEG (R80): form `s`. -/
def execNeg (s : State) : Host.Outcome State Fault Refusal := formS negResponse s

/-- ABS's pseudocode (R81). -/
def absResponse (a : Word) : Response :=
  if isNeg a then returnWord (BitVec.ofNat 64 (a.toNat - signBit)) else returnWord a

/-- ABS (R81): form `s`. -/
def execAbs (s : State) : Host.Outcome State Fault Refusal := formS absResponse s

end Sys2Proof.Machine
end

