-- ==== Sys2Proof/Machine/PairArith.lean ====
section
/-! DEFINITION. Family 0x4, value-pair arithmetic: signed ⊕ signed (spec/45_pair_arith.md R150 to R154). -/

namespace Sys2Proof.Machine

/-- The case split that ADDP and SUBP share (R151, R152 'identical in structure to add'): combine a magnitude of sign `na`
with one of sign `nb`. Same sign: the magnitudes add under the range check, which names its kind by the sign. Mixed sign:
the larger magnitude wins. -/
def combineSigned (na : Bool) (ma : Nat) (nb : Bool) (mb : Nat) : Response :=
  if na = nb then
    if !addFits ma mb then
      (if na then raiseKind .subUnderflow else raiseKind .addOverflow)
    else returnWord (compose na (ma + mb))
  else if mb ≤ ma then returnWord (compose na (ma - mb))
  else returnWord (compose nb (mb - ma))

/-- ADDP's pseudocode (R151). -/
def addpResponse (a b : Word) : Response := combineSigned (isNeg a) (mag a) (isNeg b) (mag b)

/-- ADDP (R151): form `s,s`. -/
def execAddp (s : State) : Host.Outcome State Fault Refusal := formSS addpResponse s

/-- SUBP's pseudocode (R152): b's effective sign is flipped. -/
def subpResponse (a b : Word) : Response := combineSigned (isNeg a) (mag a) (!isNeg b) (mag b)

/-- SUBP (R152): form `s,s`. -/
def execSubp (s : State) : Host.Outcome State Fault Refusal := formSS subpResponse s

/-- MULP's pseudocode (R153). -/
def mulpResponse (a b : Word) : Response :=
  if !mulFits (mag a) (mag b) then raiseKind .mulOverflow
  else returnWord (compose (isNeg a ^^ isNeg b) (mag a * mag b))

/-- MULP (R153): form `s,s`. -/
def execMulp (s : State) : Host.Outcome State Fault Refusal := formSS mulpResponse s

/-- DIVP's pseudocode (R154). -/
def divpResponse (a b : Word) : Response :=
  if !nonZero (mag b) then raiseKind .divideByZero
  else returnWord (compose (isNeg a ^^ isNeg b) (mag a / mag b))

/-- DIVP (R154): form `s,s`. -/
def execDivp (s : State) : Host.Outcome State Fault Refusal := formSS divpResponse s

end Sys2Proof.Machine
end

