-- ==== Sys2Proof/Machine/ScalarArith.lean ====
section
/-! DEFINITION. Family 0x3, scalar arithmetic: signed word ⊕ unsigned scalar (spec/44_scalar_arith.md R130 to R134). Every
check stands before the operation it guards (R120), and all arithmetic is exact in `Nat` (R9). -/

namespace Sys2Proof.Machine

/-- ADDS's pseudocode (R131). -/
def addsResponse (a : Word) (s : Nat) : Response :=
  if !isNeg a then
    if !addFits (mag a) s then raiseKind .addOverflow else returnWord (compose false (mag a + s))
  else if mag a ≤ s then
    if !fitsMag (s - mag a) then raiseKind .addOverflow else returnWord (compose false (s - mag a))
  else returnWord (compose true (mag a - s))

/-- ADDS (R131): form `s,u`. -/
def execAdds (s : State) : Host.Outcome State Fault Refusal := formSU addsResponse s

/-- SUBS's pseudocode (R132). -/
def subsResponse (a : Word) (s : Nat) : Response :=
  if isNeg a then
    if !addFits (mag a) s then raiseKind .subUnderflow else returnWord (compose true (mag a + s))
  else if s ≤ mag a then returnWord (compose false (mag a - s))
  else if !fitsMag (s - mag a) then raiseKind .subUnderflow
  else returnWord (compose true (s - mag a))

/-- SUBS (R132): form `s,u`. -/
def execSubs (s : State) : Host.Outcome State Fault Refusal := formSU subsResponse s

/-- MULS's pseudocode (R133). -/
def mulsResponse (a : Word) (s : Nat) : Response :=
  if !mulFits (mag a) s then raiseKind .mulOverflow else returnWord (compose (isNeg a) (mag a * s))

/-- MULS (R133): form `s,u`. -/
def execMuls (s : State) : Host.Outcome State Fault Refusal := formSU mulsResponse s

/-- DIVS's pseudocode (R134). -/
def divsResponse (a : Word) (s : Nat) : Response :=
  if !nonZero s then raiseKind .divideByZero else returnWord (compose (isNeg a) (mag a / s))

/-- DIVS (R134): form `s,u`. -/
def execDivs (s : State) : Host.Outcome State Fault Refusal := formSU divsResponse s

end Sys2Proof.Machine
end

