-- ==== Sys2Proof/Machine/Dispatch.lean ====
section
/-! DEFINITION. One arm per command of spec/30_encoding.md R55: the command's meaning on a state whose ports A and B hold its
operands. -/

namespace Sys2Proof.Machine

def exec (i : Instr) (s : State) : Host.Outcome State Fault Refusal :=
  match i with
  | .norm => Sys2Proof.Machine.execNorm s
  | .zero => Sys2Proof.Machine.execZero s
  | .one => Sys2Proof.Machine.execOne s
  | .iszero => Sys2Proof.Machine.execIszero s
  | .isneg => Sys2Proof.Machine.execIsneg s
  | .neg => Sys2Proof.Machine.execNeg s
  | .abs => Sys2Proof.Machine.execAbs s
  | .fromu => Sys2Proof.Machine.execFromu s
  | .negfromu => Sys2Proof.Machine.execNegfromu s
  | .tou => Sys2Proof.Machine.execTou s
  | .cmp => Sys2Proof.Machine.execCmp s
  | .eq => Sys2Proof.Machine.execEq s
  | .lt => Sys2Proof.Machine.execLt s
  | .gt => Sys2Proof.Machine.execGt s
  | .lte => Sys2Proof.Machine.execLte s
  | .gte => Sys2Proof.Machine.execGte s
  | .adds => Sys2Proof.Machine.execAdds s
  | .subs => Sys2Proof.Machine.execSubs s
  | .muls => Sys2Proof.Machine.execMuls s
  | .divs => Sys2Proof.Machine.execDivs s
  | .addp => Sys2Proof.Machine.execAddp s
  | .subp => Sys2Proof.Machine.execSubp s
  | .mulp => Sys2Proof.Machine.execMulp s
  | .divp => Sys2Proof.Machine.execDivp s

end Sys2Proof.Machine
end

