-- ==== Sys2Proof/Machine/Step.lean ====
section
/-! DEFINITION. One step: the host's next action, and for a command its one response (spec/20_memory.md R45,
spec/70_reset_and_hazards.md R195, R196). -/

namespace Sys2Proof.Machine

/-- One step. With no command driven the unit is idle and nothing changes. A command is decoded (R175 check 1), run with the
operands on its ports, and its response is complete before the next command is taken (R45). That STATUS and RESULT go on
showing that response through idle steps, until the next command or reset, is a DESIGN CHOICE (log entry 16): the spec gives
the ports no hold time. -/
def step (s : State) : Host.Outcome State Fault Refusal :=
  match fetch s with
  | .idle => .next s
  | .quiet t => .next t
  | .command t =>
    match decodePort t with
    | .ok i => finish (exec i t)
    | .error _ => finish (illegalCommand t)

/-- `s` with the command word of an opcode-table row issued next (log entry 4): the unit fetches nothing (R21, R48), a
command comes to it when the host issues it. The operand ports keep their values. -/
def State.withFetchWord (s : State) (nbits w : Nat) : State :=
  issueWord (BitVec.ofNat 8 (w % 2 ^ nbits)) s

end Sys2Proof.Machine
end

