-- ==== Sys2Proof/Machine/Assembler.lean ====
section
/-! DEFINITION. The assembler syntax of spec/30_encoding.md section 5 (R58 to R61). It has no weight in a step: it says which
command a line of text stands for, and how a command is listed. Text is a list of characters. -/

namespace Sys2Proof.Machine

/-- An operand literal (R59), before the port it goes to is known. -/
inductive Literal where
  /-- A decimal integer, with or without a minus sign. -/
  | dec (minus : Bool) (n : Nat)
  /-- `0x` and this many hexadecimal digits. -/
  | hex (digits : Nat) (n : Nat)
deriving DecidableEq, Repr

/-- The value of a decimal digit. -/
def decDigit (c : Char) : Option Nat :=
  if '0'.toNat ≤ c.toNat ∧ c.toNat ≤ '9'.toNat then some (c.toNat - '0'.toNat) else none

/-- The value of a hexadecimal digit, in capitals or small letters. -/
def hexDigit (c : Char) : Option Nat :=
  if '0'.toNat ≤ c.toNat ∧ c.toNat ≤ '9'.toNat then some (c.toNat - '0'.toNat)
  else if 'A'.toNat ≤ c.toNat ∧ c.toNat ≤ 'F'.toNat then some (c.toNat - 'A'.toNat + 10)
  else if 'a'.toNat ≤ c.toNat ∧ c.toNat ≤ 'f'.toNat then some (c.toNat - 'a'.toNat + 10)
  else none

/-- The number that digits spell in a base, after `acc`. -/
def digitsFrom (base : Nat) (digit : Char → Option Nat) (acc : Nat) : List Char → Option Nat
  | [] => some acc
  | c :: cs =>
    match digit c with
    | some d => digitsFrom base digit (acc * base + d) cs
    | none => none

/-- A number with at least one digit. -/
def number (base : Nat) (digit : Char → Option Nat) (cs : List Char) : Option Nat :=
  if cs.isEmpty then none else digitsFrom base digit 0 cs

/-- Read a literal (R59). -/
def parseLiteral (cs : List Char) : Option Literal :=
  match cs with
  | '0' :: 'x' :: ds => (number 16 hexDigit ds).map (.hex ds.length)
  | '-' :: ds => (number 10 decDigit ds).map (.dec true)
  | ds => (number 10 decDigit ds).map (.dec false)

/-- The word a literal assembles to on a signed or raw port (R59); `none` is an assembler error. -/
def assembleSigned : Literal → Option Word
  | .dec minus n =>
    if n ≤ maxMag then some (wordOfInt (if minus then -(n : Int) else (n : Int))) else none
  | .hex digits n => if digits ≤ 16 then some (BitVec.ofNat 64 n) else none

/-- The word a literal assembles to on a scalar port (R59): a minus sign there is an assembler error. -/
def assembleScalar : Literal → Option Word
  | .dec minus n => if minus = false ∧ n < 2 ^ scalarWidth then some (BitVec.ofNat 64 n) else none
  | .hex _ n => if n < 2 ^ scalarWidth then some (BitVec.ofNat 64 n) else none

/-- The word a literal assembles to on a port read in this way. A port that is ignored takes no literal (R58). -/
def assembleOperand (f : PortForm) (l : Literal) : Option Word :=
  match f with
  | .ignored => none
  | .raw => assembleSigned l
  | .signed => assembleSigned l
  | .scalar => assembleScalar l

/-- A small letter as its capital (R58: mnemonics are case-insensitive). -/
def capital (c : Char) : Char :=
  if 'a'.toNat ≤ c.toNat ∧ c.toNat ≤ 'z'.toNat then Char.ofNat (c.toNat - 32) else c

/-- The command a mnemonic names (R58). -/
def ofMnemonic (cs : List Char) : Option Instr :=
  Instr.all.find? (fun i => i.mnemonic == cs.map capital)

/-- The operand words of a command, in port order A then B; a port that takes no operand is driven with 0 (R58). -/
def assembleOperands (i : Instr) (ls : List Literal) : Option (Word × Word) :=
  match i.form.portA, i.form.portB, ls with
  | .ignored, .ignored, [] => some (0#64, 0#64)
  | f, .ignored, [l] => (assembleOperand f l).map (fun a => (a, 0#64))
  | f, g, [l, m] =>
    match assembleOperand f l, assembleOperand g m with
    | some a, some b => some (a, b)
    | _, _ => none
  | _, _, _ => none

/-- Cut a line at every `sep`. -/
def splitAt (sep : Char) : List Char → List (List Char)
  | [] => [[]]
  | c :: cs =>
    if c = sep then [] :: splitAt sep cs
    else
      match splitAt sep cs with
      | [] => [[c]]
      | p :: ps => (c :: p) :: ps

/-- Drop the spaces around a piece of text. -/
def trim (cs : List Char) : List Char :=
  ((cs.dropWhile (· = ' ')).reverse.dropWhile (· = ' ')).reverse

/-- Read every literal of a list, or none of them. -/
def parseLiterals : List (List Char) → Option (List Literal)
  | [] => some []
  | p :: ps =>
    match parseLiteral (trim p), parseLiterals ps with
    | some l, some ls => some (l :: ls)
    | _, _ => none

/-- Assemble one line, `MNEMONIC` and its operands separated by commas (R58). `none` is an assembler error. -/
def assemble (line : List Char) : Option Command :=
  let text := trim line
  let name := text.takeWhile (· ≠ ' ')
  let args := trim (text.dropWhile (· ≠ ' '))
  match ofMnemonic name, parseLiterals (if args.isEmpty then [] else splitAt ',' args) with
  | some i, some ls => (assembleOperands i ls).map (fun w => ⟨encode i, w.1, w.2⟩)
  | _, _ => none

/-- A hexadecimal digit in capitals. -/
def hexChar (d : Nat) : Char :=
  if d < 10 then Char.ofNat ('0'.toNat + d) else Char.ofNat ('A'.toNat + (d - 10))

/-- The last `digits` hexadecimal digits of a number. -/
def hexText : Nat → Nat → List Char
  | 0, _ => []
  | digits + 1, n => hexText digits (n / 16) ++ [hexChar (n % 16)]

/-- A command with every port that it ignores shown as 0 (R61). An illegal command word is shown as it is. -/
def listed (p : Params) (c : Command) : Command :=
  match decode p c.cmd with
  | .ok i =>
    { cmd := c.cmd
      a := if i.form.portA = .ignored then 0#64 else c.a
      b := if i.form.portB = .ignored then 0#64 else c.b }
  | .error _ => c

/-- The listing of a command (R61): `CMD=0xHH A=0xHHHHHHHHHHHHHHHH B=0xHHHHHHHHHHHHHHHH`. -/
def listing (p : Params) (c : Command) : List Char :=
  ['C', 'M', 'D', '=', '0', 'x'] ++ hexText 2 (listed p c).cmd.toNat ++
  [' ', 'A', '=', '0', 'x'] ++ hexText 16 (listed p c).a.toNat ++
  [' ', 'B', '=', '0', 'x'] ++ hexText 16 (listed p c).b.toNat

end Sys2Proof.Machine
end

