-- ==== Sys2Proof/Safety.lean ====
section
/-! DEFINITION. What counts as a right answer and a safe run, in the terms the statements use: canonical words
(spec/10_state.md R26), operands the input stage accepts (spec/40_normalizer.md R74), the result kinds of spec/30_encoding.md
R54, the error kinds each command can raise (spec/60_exceptions.md R170, R174), and the invariant over a whole state. -/

namespace Sys2Proof.Machine

/-- A canonical word (R13): any word but negative zero. -/
abbrev Canonical (w : Word) : Prop := w ≠ negZero

/-- The word has a meaning on a signed port (R27, R74): always under `normalize`, and under `refuse` when it is canonical. -/
abbrev SignedOk (p : Params) (w : Word) : Prop := p.noncanonical = .refuse → Canonical w

/-- A port read in this way has a word with a meaning (R52, R74). -/
def portOk (p : Params) (f : PortForm) (w : Word) : Bool :=
  match f with
  | .ignored => true
  | .raw => true
  | .signed => decide (SignedOk p w)
  | .scalar => true

/-- The operands on ports A and B have a meaning for a command (R52, R74). -/
def operandsOk (p : Params) (i : Instr) (a b : Word) : Bool :=
  portOk p i.form.portA a && portOk p i.form.portB b

/-- What RESULT holds for each result kind (R54). -/
def resultKindHolds (k : ResultKind) (v : Word) : Bool :=
  match k with
  | .signed => decide (Canonical v)
  | .unsigned => decide (v.toNat ≤ maxMag)
  | .bool => decide (v = 0#64 ∨ v = 1#64)
  | .ordering => decide (v = 0#64 ∨ v = 1#64 ∨ v = 2#64)

/-- The error kinds a legal command can raise: the 'raised by' column of R170. -/
def raisable : Instr → List ErrorKind
  | .norm => []
  | .zero => []
  | .one => []
  | .iszero => []
  | .isneg => []
  | .neg => []
  | .abs => []
  | .fromu => [.conversionOverflow]
  | .negfromu => [.conversionOverflow]
  | .tou => [.conversionUnderflow]
  | .cmp => []
  | .eq => []
  | .lt => []
  | .gt => []
  | .lte => []
  | .gte => []
  | .adds => [.addOverflow]
  | .subs => [.subUnderflow]
  | .muls => [.mulOverflow]
  | .divs => [.divideByZero]
  | .addp => [.addOverflow, .subUnderflow]
  | .subp => [.addOverflow, .subUnderflow]
  | .mulp => [.mulOverflow]
  | .divp => [.divideByZero]

/-- A response that fits a legal command: a result of its kind (R54), or an error kind it can raise (R170). -/
def fitsCommand (i : Instr) (r : Response) : Bool :=
  match r with
  | .ok v => resultKindHolds i.resultKind v
  | .err k => (raisable i).contains k

/-- A response that fits what the host issued: that of the legal command, or IllegalCommand for an illegal CMD value under
`ILLEGAL_COMMAND_POLICY = status` (R176). -/
def conforms (p : Params) (c : Command) (r : Response) : Bool :=
  match decode p c.cmd with
  | .ok i => fitsCommand i r
  | .error _ => decide (p.illegalPolicy = .status ∧ r = .err .illegalCommand)

/-- The response on STATUS and RESULT, where there is one, is the one the host received last, to the command still on the
input ports (R22, R23, R190). That the ports still show them between commands is the model's choice (log entry 16). -/
def portsMatchTranscript (s : State) : Bool :=
  match s.response with
  | some r => decide (s.transcript.getLast? = some (⟨s.cmd, s.a, s.b⟩, r))
  | none => true

/-- The invariant: every response the host has received fits its command, and the output ports show the last one. -/
def conformingState (s : State) : Bool :=
  s.transcript.all (fun e => conforms s.params e.1 e.2) && portsMatchTranscript s

/-- The illegal CMD values, range by range as R56 lists them. -/
abbrev IllegalValue (p : Params) (w : CmdWord) : Prop :=
  (0x07 ≤ w.toNat ∧ w.toNat ≤ 0x0F) ∨ (0x13 ≤ w.toNat ∧ w.toNat ≤ 0x1F) ∨ (0x26 ≤ w.toNat ∧ w.toNat ≤ 0x2F) ∨
  (0x34 ≤ w.toNat ∧ w.toNat ≤ 0x3F) ∨ (0x44 ≤ w.toNat ∧ w.toNat ≤ 0x4F) ∨ (0x50 ≤ w.toNat ∧ w.toNat ≤ 0xFF) ∨
  (p.includeAux = false ∧
    ((0x10 ≤ w.toNat ∧ w.toNat ≤ 0x12) ∨ (0x20 ≤ w.toNat ∧ w.toNat ≤ 0x25)))

/-- The command of a row of R119's table. -/
def rangeInstr : RangeOp → Instr
  | .adds => .adds
  | .subs => .subs
  | .addp => .addp
  | .subp => .subp
  | .muls => .muls
  | .mulp => .mulp
  | .fromu => .fromu
  | .negfromu => .negfromu

/-- The exact integer that a row's command computes from ports A and B (R119, R121), each read in its form (R52). -/
def exactResult (op : RangeOp) (a b : Word) : Int :=
  match op with
  | .adds => val (normalize a) + (scalar b : Int)
  | .subs => val (normalize a) - (scalar b : Int)
  | .addp => val (normalize a) + val (normalize b)
  | .subp => val (normalize a) - val (normalize b)
  | .muls => val (normalize a) * (scalar b : Int)
  | .mulp => val (normalize a) * val (normalize b)
  | .fromu => (scalar a : Int)
  | .negfromu => -(scalar a : Int)

/-- The integer lies in the valid range [-MAX, MAX] (R14). -/
abbrev InRange (n : Int) : Prop := -(maxMag : Int) ≤ n ∧ n ≤ (maxMag : Int)

end Sys2Proof.Machine
end

