-- ==== Sys2Proof/Certificates/Slice0/Obligations.lean ====
section
/-! DEFINITION. The statements for the provers. In a statement about one command, `val (normalize s.a)` is the integer that
port A denotes once it has passed the input stage (R14, R74), and `SignedOk s.params s.a` says that the input stage accepts it.
A next state is written as the old one with its response replaced: that equation is the command's whole frame. -/

open Sys2Proof Sys2Proof.Machine

/-! ### Encoding -/

/-- R55 and R56: a CMD value decodes to a command exactly when it is that command's encoding and the instance has the command.
Decoding an encoded well-formed command gives it back, and no other word decodes to it. -/
def Obligations.DecodeEncodeAgree : Prop :=
  ∀ (p : Params) (w : CmdWord) (i : Instr), decode p w = .ok i ↔ (w = encode i ∧ i.wellFormed p = true)

/-- R55: command words of each family, written out bit by bit, decode to their commands. -/
def Obligations.DecodeWordsSanity : Prop :=
  decode Params.default 0b00000101#8 = .ok .neg ∧ decode Params.default 0b00010010#8 = .ok .tou ∧
  decode Params.default 0b00100100#8 = .ok .lte ∧ decode Params.default 0b00110010#8 = .ok .muls ∧
  decode Params.default 0b01000001#8 = .ok .subp

/-- R56: the CMD values that decode to no command are those of R56's ranges, and 232 of them are illegal in an instance with
the auxiliary commands. -/
def Obligations.IllegalValuesExactly : Prop :=
  (∀ (p : Params) (w : CmdWord), (∃ e, decode p w = .error e) ↔ IllegalValue p w) ∧
  ((List.range 256).filter (fun n => decodeTableWord 8 n = none)).length = 232

/-! ### The helper functions and the overflow detector -/

/-- R15 (the spec's own inference): `val` is a bijection between the canonical words and the integers of [-MAX, MAX], and
`wordOfInt` is its inverse. -/
def Obligations.CanonicalWordsAreIntegers : Prop :=
  (∀ w : Word, Canonical w → InRange (val w) ∧ wordOfInt (val w) = w) ∧
  (∀ n : Int, InRange n → Canonical (wordOfInt n) ∧ val (wordOfInt n) = n)

/-- R73: for a magnitude that fits, `compose` gives the canonical word of the signed magnitude; a zero magnitude gives 0. -/
def Obligations.ComposeRule : Prop :=
  (∀ (neg : Bool) (m : Nat), m ≤ maxMag →
    compose neg m = normalize (BitVec.ofNat 64 (if neg then 2 ^ 63 + m else m)) ∧
    Canonical (compose neg m) ∧ val (compose neg m) = if neg then -(m : Int) else (m : Int)) ∧
  compose true 0 = 0#64

/-- R116: `addFits m s` says m + s ≤ MAX, and it fails for every m when s > MAX. -/
def Obligations.AddFitsExact : Prop :=
  ∀ m s : Nat, (addFits m s = true ↔ (m : Int) ≤ (maxMag : Int) - (s : Int)) ∧
    (addFits m s = true ↔ m + s ≤ maxMag) ∧ (maxMag < s → addFits m s = false)

/-- R117 and the inference it draws: `mulFits m s` says m · s ≤ MAX. -/
def Obligations.MulFitsExact : Prop :=
  ∀ m s : Nat, mulFits m s = true ↔ m * s ≤ maxMag

/-- R119's table with R121 (the spec's own inference): where a command with a range check completes, a result in [-MAX, MAX]
is the exact integer, and a result outside it fails with the table's kind. A cell 'cannot occur' is a range the exact result
never reaches; FROMU's negative cell and NEGFROMU's positive cell are never reached either. -/
def Obligations.RangeKindTable : Prop :=
  ∀ (op : RangeOp) (s : State), operandsOk s.params (rangeInstr op) s.a s.b = true →
    (InRange (exactResult op s.a s.b) →
      exec (rangeInstr op) s = .next { s with response := some (.ok (wordOfInt (exactResult op s.a s.b))) }) ∧
    ((maxMag : Int) < exactResult op s.a s.b →
      ∃ k, rangeKind op .pos = some k ∧ exec (rangeInstr op) s = .next { s with response := some (.err k) }) ∧
    (exactResult op s.a s.b < -(maxMag : Int) →
      ∃ k, rangeKind op .neg = some k ∧ exec (rangeInstr op) s = .next { s with response := some (.err k) })

/-! ### Family 0x0 -/

/-- R75: NORM collapses negative zero to 0 and leaves every other word as it is, under both settings. -/
def Obligations.NormRule : Prop :=
  encode .norm = 0x00#8 ∧
  ∀ s : State, exec .norm s =
    .next { s with response := some (.ok (if s.a = 0x8000000000000000#64 then 0#64 else s.a)) }

/-- R76: ZERO returns 0 whatever is on the ports, and that word is the only canonical encoding of 0. -/
def Obligations.ZeroRule : Prop :=
  encode .zero = 0x01#8 ∧
  (∀ s : State, exec .zero s = .next { s with response := some (.ok 0x0000000000000000#64) }) ∧
  (∀ w : Word, Canonical w → (val w = 0 ↔ w = 0x0000000000000000#64))

/-- R77: ONE returns 1 whatever is on the ports. -/
def Obligations.OneRule : Prop :=
  encode .one = 0x02#8 ∧ ∀ s : State, exec .one s = .next { s with response := some (.ok 0x0000000000000001#64) }

/-- R78: ISZERO answers 1 exactly for the value 0; under `refuse`, negative zero is refused. -/
def Obligations.IszeroRule : Prop :=
  encode .iszero = 0x03#8 ∧
  ∀ s : State,
    (SignedOk s.params s.a →
      exec .iszero s = .next { s with response := some (.ok (if val (normalize s.a) = 0 then 1#64 else 0#64)) }) ∧
    (¬ SignedOk s.params s.a → exec .iszero s = .refused .noncanonicalOperand)

/-- R79: ISNEG answers 1 exactly for a value below 0; under `refuse`, negative zero is refused. -/
def Obligations.IsnegRule : Prop :=
  encode .isneg = 0x04#8 ∧
  ∀ s : State,
    (SignedOk s.params s.a →
      exec .isneg s = .next { s with response := some (.ok (if val (normalize s.a) < 0 then 1#64 else 0#64)) }) ∧
    (¬ SignedOk s.params s.a → exec .isneg s = .refused .noncanonicalOperand)

/-- R80: NEG returns the canonical word of the negated value and never fails; under `refuse`, negative zero is refused. -/
def Obligations.NegRule : Prop :=
  encode .neg = 0x05#8 ∧
  ∀ s : State,
    (SignedOk s.params s.a →
      exec .neg s = .next { s with response := some (.ok (wordOfInt (-val (normalize s.a)))) }) ∧
    (¬ SignedOk s.params s.a → exec .neg s = .refused .noncanonicalOperand)

/-- R81: ABS returns the canonical word of the absolute value and never fails; under `refuse`, negative zero is refused. -/
def Obligations.AbsRule : Prop :=
  encode .abs = 0x06#8 ∧
  ∀ s : State,
    (SignedOk s.params s.a →
      exec .abs s = .next { s with response := some (.ok (wordOfInt |val (normalize s.a)|)) }) ∧
    (¬ SignedOk s.params s.a → exec .abs s = .refused .noncanonicalOperand)

/-- R82 (a), the spec's own inference: NEG of NEG of a canonical word is that word. -/
def Obligations.NegInvolution : Prop :=
  ∀ s : State, Canonical s.a → ∃ v : Word,
    exec .neg s = .next { s with response := some (.ok v) } ∧
    exec .neg { s with a := v } = .next { s with a := v, response := some (.ok s.a) }

/-- R82 (b), the spec's own inference: ISNEG of ABS of a canonical word is 0. -/
def Obligations.AbsNonNegative : Prop :=
  ∀ s : State, Canonical s.a → ∃ v : Word,
    exec .abs s = .next { s with response := some (.ok v) } ∧
    exec .isneg { s with a := v } = .next { s with a := v, response := some (.ok 0#64) }

/-- R82 (c), (d) and (e), the spec's own inferences. For a canonical word x on A: NEG completes with a canonical word of value
-val(x), ABS with one of value |val(x)|, and ISZERO completes, with 1 exactly when x = 0. For every word, `normalize` is
idempotent. -/
def Obligations.NormalizerFamilyLaws : Prop :=
  (∀ s : State, Canonical s.a → ∃ n m z : Word,
    (exec .neg s = .next { s with response := some (.ok n) } ∧ Canonical n ∧ val n = -val s.a) ∧
    (exec .abs s = .next { s with response := some (.ok m) } ∧ Canonical m ∧ val m = |val s.a|) ∧
    (exec .iszero s = .next { s with response := some (.ok z) } ∧ (z = 1#64 ↔ s.a = 0#64))) ∧
  (∀ w : Word, normalize (normalize w) = normalize w)

/-! ### Family 0x1 -/

/-- R90: FROMU returns the scalar's own word up to MAX and raises ConversionOverflow above it. -/
def Obligations.FromuRule : Prop :=
  encode .fromu = 0x10#8 ∧
  ∀ s : State,
    (s.a.toNat ≤ maxMag → exec .fromu s = .next { s with response := some (.ok s.a) }) ∧
    (maxMag < s.a.toNat → exec .fromu s = .next { s with response := some (.err .conversionOverflow) })

/-- R91: NEGFROMU returns the word of the negated scalar up to MAX and raises ConversionOverflow above it. -/
def Obligations.NegfromuRule : Prop :=
  encode .negfromu = 0x11#8 ∧
  ∀ s : State,
    (s.a.toNat ≤ maxMag →
      exec .negfromu s = .next { s with response := some (.ok (wordOfInt (-(s.a.toNat : Int)))) }) ∧
    (maxMag < s.a.toNat → exec .negfromu s = .next { s with response := some (.err .conversionOverflow) })

/-- R92: TOU returns a non-negative value unchanged and raises ConversionUnderflow on a negative one; under `refuse`, negative
zero is refused. -/
def Obligations.TouRule : Prop :=
  encode .tou = 0x12#8 ∧
  ∀ s : State,
    (SignedOk s.params s.a → 0 ≤ val (normalize s.a) →
      exec .tou s = .next { s with response := some (.ok (wordOfInt (val (normalize s.a)))) }) ∧
    (SignedOk s.params s.a → val (normalize s.a) < 0 →
      exec .tou s = .next { s with response := some (.err .conversionUnderflow) }) ∧
    (¬ SignedOk s.params s.a → exec .tou s = .refused .noncanonicalOperand)

/-- R93 (a): for every u in [0, MAX], TOU of FROMU of u is u, under both settings. -/
def Obligations.ConversionRoundTrip : Prop :=
  ∀ s : State, s.a.toNat ≤ maxMag → ∃ v : Word,
    exec .fromu s = .next { s with response := some (.ok v) } ∧
    exec .tou { s with a := v } = .next { s with a := v, response := some (.ok s.a) }

/-- R93 (b), the spec's own inference: NEGFROMU is NEG of FROMU for every scalar, failures included. -/
def Obligations.NegfromuIsNegOfFromu : Prop :=
  ∀ s : State,
    (∀ v : Word, exec .fromu s = .next { s with response := some (.ok v) } →
      ∃ w : Word, exec .neg { s with a := v } = .next { s with a := v, response := some (.ok w) } ∧
        exec .negfromu s = .next { s with response := some (.ok w) }) ∧
    (∀ k : ErrorKind, exec .fromu s = .next { s with response := some (.err k) } →
      exec .negfromu s = .next { s with response := some (.err k) })

/-! ### Family 0x2 -/

/-- R100 to R102: CMP answers 0, 1 or 2 as A's value equals, is less than or is greater than B's. -/
def Obligations.CmpRule : Prop :=
  encode .cmp = 0x20#8 ∧
  ∀ s : State,
    (SignedOk s.params s.a → SignedOk s.params s.b →
      exec .cmp s = .next { s with response := some (.ok
        (if val (normalize s.a) = val (normalize s.b) then 0#64
         else if val (normalize s.a) < val (normalize s.b) then 1#64 else 2#64)) }) ∧
    (¬ (SignedOk s.params s.a ∧ SignedOk s.params s.b) → exec .cmp s = .refused .noncanonicalOperand)

/-- R103: EQ answers 1 exactly when the two values, hence the two words after the input stage, are equal. -/
def Obligations.EqRule : Prop :=
  encode .eq = 0x21#8 ∧
  ∀ s : State,
    (SignedOk s.params s.a → SignedOk s.params s.b →
      exec .eq s = .next { s with response := some (.ok
        (if val (normalize s.a) = val (normalize s.b) then 1#64 else 0#64)) } ∧
      (normalize s.a = normalize s.b ↔ val (normalize s.a) = val (normalize s.b))) ∧
    (¬ (SignedOk s.params s.a ∧ SignedOk s.params s.b) → exec .eq s = .refused .noncanonicalOperand)

/-- R104 to R107: LT, GT, LTE and GTE answer 1 exactly when the two values stand in that order. -/
def Obligations.OrderPredicatesRule : Prop :=
  (encode .lt = 0x22#8 ∧ encode .gt = 0x23#8 ∧ encode .lte = 0x24#8 ∧ encode .gte = 0x25#8) ∧
  ∀ s : State,
    (SignedOk s.params s.a → SignedOk s.params s.b →
      exec .lt s = .next { s with response := some (.ok
        (if val (normalize s.a) < val (normalize s.b) then 1#64 else 0#64)) } ∧
      exec .gt s = .next { s with response := some (.ok
        (if val (normalize s.b) < val (normalize s.a) then 1#64 else 0#64)) } ∧
      exec .lte s = .next { s with response := some (.ok
        (if val (normalize s.a) ≤ val (normalize s.b) then 1#64 else 0#64)) } ∧
      exec .gte s = .next { s with response := some (.ok
        (if val (normalize s.b) ≤ val (normalize s.a) then 1#64 else 0#64)) }) ∧
    (¬ (SignedOk s.params s.a ∧ SignedOk s.params s.b) →
      exec .lt s = .refused .noncanonicalOperand ∧ exec .gt s = .refused .noncanonicalOperand ∧
      exec .lte s = .refused .noncanonicalOperand ∧ exec .gte s = .refused .noncanonicalOperand)

/-- R108 (a): exactly one of LT, EQ and GT answers 1. -/
def Obligations.OrderingTotality : Prop :=
  ∀ s : State, SignedOk s.params s.a → SignedOk s.params s.b → ∃ l e g : Word,
    exec .lt s = .next { s with response := some (.ok l) } ∧
    exec .eq s = .next { s with response := some (.ok e) } ∧
    exec .gt s = .next { s with response := some (.ok g) } ∧
    ((l = 1#64 ∧ e = 0#64 ∧ g = 0#64) ∨ (l = 0#64 ∧ e = 1#64 ∧ g = 0#64) ∨ (l = 0#64 ∧ e = 0#64 ∧ g = 1#64))

/-! ### Family 0x3 -/

/-- R131: ADDS returns A + B, B an unsigned scalar, and raises AddOverflow exactly when that exceeds MAX. -/
def Obligations.AddsRule : Prop :=
  encode .adds = 0x30#8 ∧
  ∀ s : State,
    (SignedOk s.params s.a → val (normalize s.a) + (s.b.toNat : Int) ≤ (maxMag : Int) →
      exec .adds s = .next { s with response := some (.ok (wordOfInt (val (normalize s.a) + (s.b.toNat : Int)))) }) ∧
    (SignedOk s.params s.a → (maxMag : Int) < val (normalize s.a) + (s.b.toNat : Int) →
      exec .adds s = .next { s with response := some (.err .addOverflow) }) ∧
    (¬ SignedOk s.params s.a → exec .adds s = .refused .noncanonicalOperand)

/-- R132: SUBS returns A - B, B an unsigned scalar, and raises SubUnderflow exactly when that is below -MAX. -/
def Obligations.SubsRule : Prop :=
  encode .subs = 0x31#8 ∧
  ∀ s : State,
    (SignedOk s.params s.a → -(maxMag : Int) ≤ val (normalize s.a) - (s.b.toNat : Int) →
      exec .subs s = .next { s with response := some (.ok (wordOfInt (val (normalize s.a) - (s.b.toNat : Int)))) }) ∧
    (SignedOk s.params s.a → val (normalize s.a) - (s.b.toNat : Int) < -(maxMag : Int) →
      exec .subs s = .next { s with response := some (.err .subUnderflow) }) ∧
    (¬ SignedOk s.params s.a → exec .subs s = .refused .noncanonicalOperand)

/-- R133: MULS returns A · B, B an unsigned scalar, and raises MulOverflow exactly when the product leaves [-MAX, MAX]. -/
def Obligations.MulsRule : Prop :=
  encode .muls = 0x32#8 ∧
  ∀ s : State,
    (SignedOk s.params s.a → InRange (val (normalize s.a) * (s.b.toNat : Int)) →
      exec .muls s = .next { s with response := some (.ok (wordOfInt (val (normalize s.a) * (s.b.toNat : Int)))) }) ∧
    (SignedOk s.params s.a → ¬ InRange (val (normalize s.a) * (s.b.toNat : Int)) →
      exec .muls s = .next { s with response := some (.err .mulOverflow) }) ∧
    (¬ SignedOk s.params s.a → exec .muls s = .refused .noncanonicalOperand)

/-- R134: DIVS returns A ÷ B truncated toward zero, B an unsigned scalar, and raises DivideByZero exactly when B = 0. -/
def Obligations.DivsRule : Prop :=
  encode .divs = 0x33#8 ∧
  ∀ s : State,
    (SignedOk s.params s.a → s.b ≠ 0#64 →
      exec .divs s =
        .next { s with response := some (.ok (wordOfInt (Int.tdiv (val (normalize s.a)) (s.b.toNat : Int)))) }) ∧
    (SignedOk s.params s.a → s.b = 0#64 → exec .divs s = .next { s with response := some (.err .divideByZero) }) ∧
    (¬ SignedOk s.params s.a → exec .divs s = .refused .noncanonicalOperand)

/-! ### Family 0x4 -/

/-- R151: ADDP returns A + B, and raises AddOverflow above MAX and SubUnderflow below -MAX. -/
def Obligations.AddpRule : Prop :=
  encode .addp = 0x40#8 ∧
  ∀ s : State,
    (SignedOk s.params s.a → SignedOk s.params s.b → InRange (val (normalize s.a) + val (normalize s.b)) →
      exec .addp s =
        .next { s with response := some (.ok (wordOfInt (val (normalize s.a) + val (normalize s.b)))) }) ∧
    (SignedOk s.params s.a → SignedOk s.params s.b → (maxMag : Int) < val (normalize s.a) + val (normalize s.b) →
      exec .addp s = .next { s with response := some (.err .addOverflow) }) ∧
    (SignedOk s.params s.a → SignedOk s.params s.b → val (normalize s.a) + val (normalize s.b) < -(maxMag : Int) →
      exec .addp s = .next { s with response := some (.err .subUnderflow) }) ∧
    (¬ (SignedOk s.params s.a ∧ SignedOk s.params s.b) → exec .addp s = .refused .noncanonicalOperand)

/-- R152: SUBP returns A - B, and raises AddOverflow above MAX and SubUnderflow below -MAX. -/
def Obligations.SubpRule : Prop :=
  encode .subp = 0x41#8 ∧
  ∀ s : State,
    (SignedOk s.params s.a → SignedOk s.params s.b → InRange (val (normalize s.a) - val (normalize s.b)) →
      exec .subp s =
        .next { s with response := some (.ok (wordOfInt (val (normalize s.a) - val (normalize s.b)))) }) ∧
    (SignedOk s.params s.a → SignedOk s.params s.b → (maxMag : Int) < val (normalize s.a) - val (normalize s.b) →
      exec .subp s = .next { s with response := some (.err .addOverflow) }) ∧
    (SignedOk s.params s.a → SignedOk s.params s.b → val (normalize s.a) - val (normalize s.b) < -(maxMag : Int) →
      exec .subp s = .next { s with response := some (.err .subUnderflow) }) ∧
    (¬ (SignedOk s.params s.a ∧ SignedOk s.params s.b) → exec .subp s = .refused .noncanonicalOperand)

/-- R153: MULP returns A · B, and raises MulOverflow exactly when the product leaves [-MAX, MAX]. -/
def Obligations.MulpRule : Prop :=
  encode .mulp = 0x42#8 ∧
  ∀ s : State,
    (SignedOk s.params s.a → SignedOk s.params s.b → InRange (val (normalize s.a) * val (normalize s.b)) →
      exec .mulp s =
        .next { s with response := some (.ok (wordOfInt (val (normalize s.a) * val (normalize s.b)))) }) ∧
    (SignedOk s.params s.a → SignedOk s.params s.b → ¬ InRange (val (normalize s.a) * val (normalize s.b)) →
      exec .mulp s = .next { s with response := some (.err .mulOverflow) }) ∧
    (¬ (SignedOk s.params s.a ∧ SignedOk s.params s.b) → exec .mulp s = .refused .noncanonicalOperand)

/-- R154: DIVP returns A ÷ B truncated toward zero, and raises DivideByZero exactly when B's value is 0. -/
def Obligations.DivpRule : Prop :=
  encode .divp = 0x43#8 ∧
  ∀ s : State,
    (SignedOk s.params s.a → SignedOk s.params s.b → val (normalize s.b) ≠ 0 →
      exec .divp s =
        .next { s with response := some (.ok (wordOfInt (Int.tdiv (val (normalize s.a)) (val (normalize s.b))))) }) ∧
    (SignedOk s.params s.a → SignedOk s.params s.b → val (normalize s.b) = 0 →
      exec .divp s = .next { s with response := some (.err .divideByZero) }) ∧
    (¬ (SignedOk s.params s.a ∧ SignedOk s.params s.b) → exec .divp s = .refused .noncanonicalOperand)

/-- R155 (a): ADDP and MULP answer the same, failures included, with the operand ports exchanged. -/
def Obligations.PairCommutativity : Prop :=
  ∀ (i : Instr) (s : State) (r : Response), i = .addp ∨ i = .mulp →
    (exec i s = .next { s with response := some r } ↔
      exec i { s with a := s.b, b := s.a } = .next { s with a := s.b, b := s.a, response := some r })

/-- R155 (b): ADDP of a canonical word and its NEG is 0. -/
def Obligations.AdditiveInverse : Prop :=
  ∀ s : State, Canonical s.a → ∃ v : Word,
    exec .neg s = .next { s with response := some (.ok v) } ∧
    exec .addp { s with b := v } = .next { s with b := v, response := some (.ok 0#64) }

/-- R155 (c), the spec's own inference: SUBP of A and B answers as ADDP of A and NEG of B, error kinds included. -/
def Obligations.SubpIsAddpOfNeg : Prop :=
  ∀ s : State, Canonical s.a → Canonical s.b → ∃ (v : Word) (r : Response),
    exec .neg { s with a := s.b } = .next { s with a := s.b, response := some (.ok v) } ∧
    exec .addp { s with b := v } = .next { s with b := v, response := some r } ∧
    exec .subp s = .next { s with response := some r }

/-! ### Every command -/

/-- R196 with R54 and R170: every command whose signed operands the input stage accepts completes, with a result of its kind
or an error kind that R170 lists for it. -/
def Obligations.EveryCommandCompletes : Prop :=
  ∀ (i : Instr) (s : State), operandsOk s.params i s.a s.b = true →
    ∃ r : Response, exec i s = .next { s with response := some r } ∧ fitsCommand i r = true

/-- R28 and R31: a command changes the response alone. Parameters, ports CMD, A and B, and the host's lists are unchanged. -/
def Obligations.CommandsChangeOnlyTheResponse : Prop :=
  ∀ (i : Instr) (s t : State), exec i s = .next t →
    t.params = s.params ∧ t.cmd = s.cmd ∧ t.a = s.a ∧ t.b = s.b ∧ t.pending = s.pending ∧
    t.transcript = s.transcript ∧ ∃ r, t.response = some r

/-- R26: RESULT is never negative zero; after an OK command with a signed result it is canonical. -/
def Obligations.ResultNeverNegativeZero : Prop :=
  ∀ (i : Instr) (s t : State), exec i s = .next t →
    resultPort t ≠ none ∧ resultPort t ≠ some 0x8000000000000000#64

/-- R174 with the 'raised by' column of R170: a legal command raises only the kinds of its row, and so never
IllegalCommand. -/
def Obligations.OnlyListedKindsAreRaised : Prop :=
  ∀ (i : Instr) (s t : State) (k : ErrorKind), exec i s = .next t → t.response = some (.err k) →
    k ∈ raisable i ∧ k ≠ .illegalCommand

/-- R171 and R172: after a command that returns v, STATUS is 0 and RESULT is v; after one that raises k, STATUS is the code of
k by R170's table and RESULT is 0. -/
def Obligations.StatusAndResultPorts : Prop :=
  (∀ (i : Instr) (s t : State), exec i s = .next t →
    (∀ v, t.response = some (.ok v) → statusPort t = some 0#4 ∧ resultPort t = some v) ∧
    (∀ k, t.response = some (.err k) → statusPort t = some (statusCode k) ∧ resultPort t = some 0#64)) ∧
  statusCode .conversionOverflow = 1#4 ∧ statusCode .conversionUnderflow = 2#4 ∧ statusCode .addOverflow = 3#4 ∧
  statusCode .subUnderflow = 4#4 ∧ statusCode .mulOverflow = 5#4 ∧ statusCode .divideByZero = 6#4 ∧
  statusCode .illegalCommand = 7#4

/-- R52: a port that the command's form ignores does not matter: any word there gives the same response, or the same
refusal. -/
def Obligations.IgnoredPortsDoNotMatter : Prop :=
  ∀ (i : Instr) (s : State) (x y : Word) (r : Response),
    (i.form.portA ≠ .ignored → x = s.a) → (i.form.portB ≠ .ignored → y = s.b) →
    (exec i s = .next { s with response := some r } ↔
      exec i { s with a := x, b := y } = .next { s with a := x, b := y, response := some r }) ∧
    (∀ e, exec i s = .refused e ↔ exec i { s with a := x, b := y } = .refused e)

/-- R74: on operands that are canonical, `NONCANONICAL_INPUT` changes no response. -/
def Obligations.SettingsAgreeOnCanonicalOperands : Prop :=
  ∀ (i : Instr) (s : State) (m : NoncanonicalInput), Canonical s.a → Canonical s.b →
    ∃ r : Response, exec i s = .next { s with response := some r } ∧
      exec i { s with params := { s.params with noncanonical := m } } =
        .next { s with params := { s.params with noncanonical := m }, response := some r }

/-! ### Steps -/

/-- A step runs the decoded command: when the host issues a command whose CMD value decodes to i, the step is `exec i` on the
state with that command on the ports, and then the response is added to the host's list. The two lists of the host are the
model's choice (log entries 3 and 7; R32 allows them). -/
def Obligations.StepRunsDecodedCommand : Prop :=
  ∀ (s : State) (c : Command) (rest : List HostAction) (i : Instr),
    s.pending = .issue c :: rest → decode s.params c.cmd = .ok i →
    (∀ r, exec i { s with cmd := c.cmd, a := c.a, b := c.b, pending := rest } =
        .next { s with cmd := c.cmd, a := c.a, b := c.b, pending := rest, response := some r } →
      step s = .next { s with cmd := c.cmd, a := c.a, b := c.b, pending := rest, response := some r,
                              transcript := s.transcript ++ [(c, r)] }) ∧
    (∀ e, exec i { s with cmd := c.cmd, a := c.a, b := c.b, pending := rest } = .refused e → step s = .refused e)

/-- R175's order of the checks, with what R174 and R196 infer of the command's own check. An illegal CMD value is answered by the policy, whatever the operands; then negative zero
on a signed port is refused; then the command's own check decides its one response. (The host's two lists in the next states
are the model's own: log entries 3 and 7.) -/
def Obligations.CheckOrder : Prop :=
  ∀ (s : State) (c : Command) (rest : List HostAction), s.pending = .issue c :: rest →
    (∀ e, decode s.params c.cmd = .error e →
      (s.params.illegalPolicy = .status →
        step s = .next { s with cmd := c.cmd, a := c.a, b := c.b, pending := rest, response := some (.err .illegalCommand),
                                transcript := s.transcript ++ [(c, .err .illegalCommand)] }) ∧
      (s.params.illegalPolicy = .refuse → step s = .refused .illegalCommand)) ∧
    (∀ i, decode s.params c.cmd = .ok i →
      (operandsOk s.params i c.a c.b = false → step s = .refused .noncanonicalOperand) ∧
      (operandsOk s.params i c.a c.b = true → ∃ r, fitsCommand i r = true ∧
        step s = .next { s with cmd := c.cmd, a := c.a, b := c.b, pending := rest, response := some r,
                                transcript := s.transcript ++ [(c, r)] }))

/-- R176: under `status`, a CMD value that R56 lists sets STATUS = 7 and RESULT = 0; under `refuse` there is no response. -/
def Obligations.IllegalCommandRule : Prop :=
  ∀ (s : State) (c : Command) (rest : List HostAction), s.pending = .issue c :: rest → IllegalValue s.params c.cmd →
    (s.params.illegalPolicy = .status →
      ∃ t, step s = .next t ∧ statusPort t = some 7#4 ∧ resultPort t = some 0#64) ∧
    (s.params.illegalPolicy = .refuse → step s = .refused .illegalCommand)

/-- R28 and R31: the response to a command depends only on CMD, A, B and the parameters. Two units in any two states answer it
alike, and where one is refused so is the other. -/
def Obligations.ResponseDependsOnlyOnCommand : Prop :=
  ∀ (s s' : State) (c : Command) (rest rest' : List HostAction),
    s.params = s'.params → s.pending = .issue c :: rest → s'.pending = .issue c :: rest' →
    (∀ t, step s = .next t → ∃ t', step s' = .next t' ∧ t'.response = t.response ∧
      t.cmd = c.cmd ∧ t.a = c.a ∧ t.b = c.b) ∧
    (∀ e, step s = .refused e → step s' = .refused e)

/-- R45 and R42: two commands issued in the other order get the same two responses, read in the host's list (log entry 7). -/
def Obligations.OrderOfCommandsDoesNotMatter : Prop :=
  ∀ (s t u : State) (c d : Command) (rest : List HostAction),
    s.pending = .issue c :: .issue d :: rest → step s = .next t → step t = .next u →
    ∃ (q r : Response) (t' u' : State),
      u.transcript = s.transcript ++ [(c, q), (d, r)] ∧
      step { s with pending := .issue d :: .issue c :: rest } = .next t' ∧ step t' = .next u' ∧
      u'.transcript = s.transcript ++ [(d, r), (c, q)]

/-- R191: after reset no response exists and the next command is answered as at any other time; a command in progress when
reset arrives produces no response. (That no response stands after a later reset is the model's inference, log entry 5;
that reset leaves the input ports and the host's two lists alone, and that a command in progress at reset is never refused,
are its choices, log entries 6 and 17.) -/
def Obligations.ResetRule : Prop :=
  ∀ (s : State) (rest : List HostAction),
    (s.pending = .reset :: rest → step s = .next { s with pending := rest, response := none }) ∧
    (∀ c, s.pending = .resetDuring c :: rest →
      step s = .next { s with cmd := c.cmd, a := c.a, b := c.b, pending := rest, response := none }) ∧
    (∀ c t, s.pending = .issue c :: rest → step s = .next t →
      ∃ u, step { s with response := none } = .next u ∧ u.response = t.response)

/-- R191 ('idle'): with no host action to come nothing changes (the model's choice, log entry 3), so the ports go on
showing the last response (log entry 16). -/
def Obligations.IdleStepChangesNothing : Prop :=
  ∀ s : State, s.pending = [] → step s = .next s

/-- R30 and R190: no step, reset included, writes the parameters, which the state carries (log entry 1). -/
def Obligations.ParametersAreFixed : Prop :=
  ∀ s t : State, step s = .next t → t.params = s.params

/-- R23, R26, R54, R170, R176: every step keeps the invariant that each response received fits its command and that the
output ports show the last one, in every state that has it. The host's list is the model's own (log entry 7), and so is that
the response is none after a reset (log entry 5) and stays on the ports between commands (log entry 16). -/
def Obligations.StepKeepsConformingState : Prop :=
  ∀ s t : State, conformingState s = true → step s = .next t → conformingState t = true

/-- R190: the state after reset meets the invariant, and no STATUS or RESULT exists in it (log entry 5; the host's list of log
entry 7 is empty). -/
def Obligations.ResetConforms : Prop :=
  conformingState State.reset = true ∧ statusPort State.reset = none ∧ resultPort State.reset = none

/-! ### Assembler -/

/-- R59: a hexadecimal literal of 16 digits assembles to that word as written, on a signed and on a scalar port. -/
def Obligations.HexLiteralsAssembleAsWritten : Prop :=
  ∀ w : Word, ∃ l : Literal, parseLiteral ('0' :: 'x' :: hexText 16 w.toNat) = some l ∧
    assembleSigned l = some w ∧ assembleScalar l = some w

/-- R59: a decimal literal on a signed port assembles to the canonical word of its value, on a scalar port to its number; out
of range, or with a minus sign on a scalar port, it is an assembler error. -/
def Obligations.DecimalLiteralsAssemble : Prop :=
  ∀ n : Nat,
    (n ≤ maxMag → ∃ v w : Word, assembleSigned (.dec false n) = some v ∧ Canonical v ∧ val v = (n : Int) ∧
      assembleSigned (.dec true n) = some w ∧ Canonical w ∧ val w = -(n : Int)) ∧
    (maxMag < n → assembleSigned (.dec false n) = none ∧ assembleSigned (.dec true n) = none) ∧
    (n < 2 ^ 64 → assembleScalar (.dec false n) = some (BitVec.ofNat 64 n)) ∧
    (2 ^ 64 ≤ n → assembleScalar (.dec false n) = none) ∧
    assembleScalar (.dec true n) = none
end

