-- ==== Sys2Proof/Laws/Words.lean ====
section
/-! SUPPORT. What the word helpers of spec/40_normalizer.md section 1 and the predicates of spec/43_overflow_detector.md do,
said once in terms of integers, so that no later proof unfolds them. -/

namespace Sys2Proof.Machine

theorem canonical_iff (w : Word) : Canonical w ↔ w.toNat ≠ signBit := by
  unfold Canonical
  rw [Ne, ← BitVec.toNat_inj]
  rfl

theorem canonical_ofNat (n : Nat) (h : n < 2 ^ 64) (h' : n ≠ signBit) : Canonical (BitVec.ofNat 64 n) := by
  rw [canonical_iff, BitVec.toNat_ofNat, Nat.mod_eq_of_lt h]
  exact h'

theorem normalize_canonical (w : Word) : Canonical (normalize w) := by
  unfold normalize
  split
  · decide
  · assumption

@[simp] theorem normalize_of_canonical (w : Word) (h : Canonical w) : normalize w = w := by
  unfold normalize
  rw [if_neg h]

@[simp] theorem normalize_negZero : normalize negZero = 0#64 := rfl

theorem isNeg_iff (w : Word) : isNeg w = true ↔ signBit < w.toNat := by simp [isNeg]

theorem isNeg_false_iff (w : Word) : isNeg w = false ↔ w.toNat ≤ signBit := by simp [isNeg]

/-- A canonical word is a magnitude, or the sign bit and a magnitude that is not zero. -/
theorem canonical_cases (w : Word) (h : Canonical w) :
    (isNeg w = false ∧ mag w = w.toNat ∧ w.toNat ≤ maxMag ∧ val w = (w.toNat : Int)) ∨
    (isNeg w = true ∧ mag w + signBit = w.toNat ∧ 0 < mag w ∧ mag w ≤ maxMag ∧ val w = -(mag w : Int)) := by
  have hc := (canonical_iff w).1 h
  have hw := w.isLt
  cases hn : isNeg w
  · have hm : mag w = w.toNat := by simp [mag, hn]
    have hle := (isNeg_false_iff w).1 hn
    refine .inl ⟨rfl, hm, ?_, by simp [val, hn, hm]⟩
    simp only [signBit, maxMag] at *
    omega
  · have hm : mag w = w.toNat - signBit := by simp [mag, hn]
    have hlt := (isNeg_iff w).1 hn
    refine .inr ⟨rfl, ?_, ?_, ?_, by simp [val, hn]⟩ <;> rw [hm] <;> simp only [signBit, maxMag] at * <;> omega

theorem mag_le_max (w : Word) (h : Canonical w) : mag w ≤ maxMag := by
  rcases canonical_cases w h with ⟨-, h1, h2, -⟩ | ⟨-, -, -, h2, -⟩ <;> omega

theorem mag_eq_natAbs (w : Word) : mag w = (val w).natAbs := by
  unfold val
  split <;> simp

theorem isNeg_eq_val_neg (w : Word) (h : Canonical w) : isNeg w = decide (val w < 0) := by
  rcases canonical_cases w h with ⟨h1, -, -, h2⟩ | ⟨h1, -, h3, -, h2⟩ <;> rw [h1, h2] <;> simp
  exact h3

/-- `compose` gives the canonical word of the signed magnitude, for every magnitude that fits. -/
theorem compose_eq_wordOfInt (neg : Bool) (m : Nat) (h : m ≤ maxMag) :
    compose neg m = wordOfInt (if neg then -(m : Int) else (m : Int)) := by
  unfold maxMag at h
  cases neg
  · have : Canonical (BitVec.ofNat 64 m) := canonical_ofNat m (by omega) (by unfold signBit; omega)
    simp [compose, wordOfInt, this]
  · rcases Nat.eq_zero_or_pos m with rfl | hm
    · rfl
    · have : Canonical (BitVec.ofNat 64 (signBit + m)) :=
        canonical_ofNat _ (by unfold signBit; omega) (by omega)
      simp [compose, wordOfInt, this, Nat.pos_iff_ne_zero.1 hm]

theorem fitsMag_iff (v : Nat) : fitsMag v = true ↔ v ≤ maxMag := by simp [fitsMag]

theorem nonZero_iff (d : Nat) : nonZero d = true ↔ d ≠ 0 := by simp [nonZero]

end Sys2Proof.Machine
end

