-- ==== Sys2Proof/Laws/Operands.lean ====
section
/-! SUPPORT. The input stage and the six operand forms: each says once when it completes, with which response, and when it is
refused. The provers cite these and unfold no form. -/

namespace Sys2Proof.Machine

theorem inS_ok (p : Params) (w : Word) (h : SignedOk p w) : inS p w = some (normalize w) := by
  unfold inS
  split
  · rfl
  · rw [if_neg (h ‹_›), normalize_of_canonical w (h ‹_›)]

theorem inS_refuse (p : Params) (w : Word) (h : ¬ SignedOk p w) : inS p w = none := by
  simp [SignedOk, Canonical] at h
  simp [inS, h.1, h.2]

@[simp] theorem formNone_eq (r : Response) (s : State) : formNone r s = .next (respond r s) := rfl

@[simp] theorem formRaw_eq (f : Word → Response) (s : State) : formRaw f s = .next (respond (f s.a) s) := rfl

@[simp] theorem formU_eq (f : Nat → Response) (s : State) : formU f s = .next (respond (f s.a.toNat) s) := rfl

theorem formS_ok (f : Word → Response) (s : State) (h : SignedOk s.params s.a) :
    formS f s = .next (respond (f (normalize s.a)) s) := by
  simp [formS, inS_ok _ _ h]

theorem formS_refuse (f : Word → Response) (s : State) (h : ¬ SignedOk s.params s.a) :
    formS f s = .refused .noncanonicalOperand := by
  simp [formS, inS_refuse _ _ h]

theorem formSU_ok (f : Word → Nat → Response) (s : State) (h : SignedOk s.params s.a) :
    formSU f s = .next (respond (f (normalize s.a) s.b.toNat) s) := by
  simp [formSU, inS_ok _ _ h, scalar]

theorem formSU_refuse (f : Word → Nat → Response) (s : State) (h : ¬ SignedOk s.params s.a) :
    formSU f s = .refused .noncanonicalOperand := by
  simp [formSU, inS_refuse _ _ h]

theorem formSS_ok (f : Word → Word → Response) (s : State) (ha : SignedOk s.params s.a) (hb : SignedOk s.params s.b) :
    formSS f s = .next (respond (f (normalize s.a) (normalize s.b)) s) := by
  simp [formSS, inS_ok _ _ ha, inS_ok _ _ hb]

theorem formSS_refuse (f : Word → Word → Response) (s : State)
    (h : ¬ (SignedOk s.params s.a ∧ SignedOk s.params s.b)) : formSS f s = .refused .noncanonicalOperand := by
  by_cases ha : SignedOk s.params s.a
  · have hb : ¬ SignedOk s.params s.b := fun hb => h ⟨ha, hb⟩
    simp [formSS, inS_refuse _ _ hb]
  · simp [formSS, inS_refuse _ _ ha]

end Sys2Proof.Machine
end

