-- ==== Sys2Proof/Laws/PairArith.lean ====
section
/-! SUPPORT. The case split that ADDP and SUBP share, said once in integers. -/

namespace Sys2Proof.Machine

/-- The signed integer of a sign and a magnitude. -/
abbrev signedInt (neg : Bool) (m : Nat) : Int := if neg then -(m : Int) else (m : Int)

/-- `combineSigned` adds the two signed integers: their sum where it is in range, else the kind of its direction. -/
theorem combineSigned_eq (na nb : Bool) (ma mb : Nat) (ha : ma ≤ maxMag) (hb : mb ≤ maxMag) :
    combineSigned na ma nb mb =
      if InRange (signedInt na ma + signedInt nb mb) then .ok (wordOfInt (signedInt na ma + signedInt nb mb))
      else if 0 < signedInt na ma + signedInt nb mb then .err .addOverflow else .err .subUnderflow := by
  have fits : addFits ma mb = decide (ma + mb ≤ maxMag) := by
    rw [addFits, decide_eq_decide]
    omega
  unfold combineSigned returnWord raiseKind
  rw [fits]
  by_cases hs : na = nb
  · subst hs
    by_cases h : ma + mb ≤ maxMag
    · have hr : InRange (signedInt na ma + signedInt na mb) := by
        cases na <;> simp [InRange, signedInt] <;> omega
      rw [compose_eq_wordOfInt _ _ h, if_pos rfl, if_pos hr]
      cases na <;> simp [h, signedInt, add_comm]
    · have hr : ¬ InRange (signedInt na ma + signedInt na mb) := by
        cases na <;> simp [InRange, signedInt] <;> omega
      rw [if_pos rfl, if_neg hr]
      have hlt : maxMag < ma + mb := by omega
      cases na <;> simp [h, signedInt]
      omega
  · have hr : InRange (signedInt na ma + signedInt nb mb) := by
      cases na <;> cases nb <;> simp [InRange, signedInt] at * <;> omega
    rw [if_neg hs, if_pos hr, compose_eq_wordOfInt na (ma - mb) (by omega), compose_eq_wordOfInt nb (mb - ma) (by omega)]
    split <;> congr 2 <;> cases na <;> cases nb <;> simp [signedInt] at * <;> omega

end Sys2Proof.Machine
end

