-- ==== Sys2Proof/Laws/PerInstr.lean ====
section
/-! SUPPORT. Facts about each command as syntax, one lemma per constructor. -/

namespace Sys2Proof.Laws.FamilyNibble

/-- The two fields of a command's word are its FAM and FN values (spec/30_encoding.md R50), and the family and the function
they select are the command's (R51, R55). -/
def Statement (i : Instr) : Prop :=
  famField (encode i) = famCode i.family ∧ fnField (encode i) = fnCode i ∧
  decodeFamily (famCode i.family) = some i.family ∧ decodeFunction i.family (fnCode i) = some i

theorem norm : Statement .norm := ⟨rfl, rfl, rfl, rfl⟩

theorem zero : Statement .zero := ⟨rfl, rfl, rfl, rfl⟩

theorem one : Statement .one := ⟨rfl, rfl, rfl, rfl⟩

theorem iszero : Statement .iszero := ⟨rfl, rfl, rfl, rfl⟩

theorem isneg : Statement .isneg := ⟨rfl, rfl, rfl, rfl⟩

theorem neg : Statement .neg := ⟨rfl, rfl, rfl, rfl⟩

theorem abs : Statement .abs := ⟨rfl, rfl, rfl, rfl⟩

theorem fromu : Statement .fromu := ⟨rfl, rfl, rfl, rfl⟩

theorem negfromu : Statement .negfromu := ⟨rfl, rfl, rfl, rfl⟩

theorem tou : Statement .tou := ⟨rfl, rfl, rfl, rfl⟩

theorem cmp : Statement .cmp := ⟨rfl, rfl, rfl, rfl⟩

theorem eq : Statement .eq := ⟨rfl, rfl, rfl, rfl⟩

theorem lt : Statement .lt := ⟨rfl, rfl, rfl, rfl⟩

theorem gt : Statement .gt := ⟨rfl, rfl, rfl, rfl⟩

theorem lte : Statement .lte := ⟨rfl, rfl, rfl, rfl⟩

theorem gte : Statement .gte := ⟨rfl, rfl, rfl, rfl⟩

theorem adds : Statement .adds := ⟨rfl, rfl, rfl, rfl⟩

theorem subs : Statement .subs := ⟨rfl, rfl, rfl, rfl⟩

theorem muls : Statement .muls := ⟨rfl, rfl, rfl, rfl⟩

theorem divs : Statement .divs := ⟨rfl, rfl, rfl, rfl⟩

theorem addp : Statement .addp := ⟨rfl, rfl, rfl, rfl⟩

theorem subp : Statement .subp := ⟨rfl, rfl, rfl, rfl⟩

theorem mulp : Statement .mulp := ⟨rfl, rfl, rfl, rfl⟩

theorem divp : Statement .divp := ⟨rfl, rfl, rfl, rfl⟩

end Sys2Proof.Laws.FamilyNibble
end

