-- ==== Sys2Proof/Laws/State.lean ====
section
/-! SUPPORT. One lemma per field for each state update, and what each of the host-side operations does. -/

namespace Sys2Proof.Machine

@[simp] theorem respond_params (r : Response) (s : State) : (respond r s).params = s.params := rfl
@[simp] theorem respond_cmd (r : Response) (s : State) : (respond r s).cmd = s.cmd := rfl
@[simp] theorem respond_a (r : Response) (s : State) : (respond r s).a = s.a := rfl
@[simp] theorem respond_b (r : Response) (s : State) : (respond r s).b = s.b := rfl
@[simp] theorem respond_response (r : Response) (s : State) : (respond r s).response = some r := rfl
@[simp] theorem respond_pending (r : Response) (s : State) : (respond r s).pending = s.pending := rfl
@[simp] theorem respond_transcript (r : Response) (s : State) : (respond r s).transcript = s.transcript := rfl

@[simp] theorem driveCommand_params (c : Command) (rest : List HostAction) (s : State) : (driveCommand c rest s).params = s.params := rfl
@[simp] theorem driveCommand_cmd (c : Command) (rest : List HostAction) (s : State) : (driveCommand c rest s).cmd = c.cmd := rfl
@[simp] theorem driveCommand_a (c : Command) (rest : List HostAction) (s : State) : (driveCommand c rest s).a = c.a := rfl
@[simp] theorem driveCommand_b (c : Command) (rest : List HostAction) (s : State) : (driveCommand c rest s).b = c.b := rfl
@[simp] theorem driveCommand_response (c : Command) (rest : List HostAction) (s : State) : (driveCommand c rest s).response = s.response := rfl
@[simp] theorem driveCommand_pending (c : Command) (rest : List HostAction) (s : State) : (driveCommand c rest s).pending = rest := rfl
@[simp] theorem driveCommand_transcript (c : Command) (rest : List HostAction) (s : State) : (driveCommand c rest s).transcript = s.transcript := rfl

@[simp] theorem resetUnit_params (s : State) : (resetUnit s).params = s.params := rfl
@[simp] theorem resetUnit_cmd (s : State) : (resetUnit s).cmd = s.cmd := rfl
@[simp] theorem resetUnit_a (s : State) : (resetUnit s).a = s.a := rfl
@[simp] theorem resetUnit_b (s : State) : (resetUnit s).b = s.b := rfl
@[simp] theorem resetUnit_response (s : State) : (resetUnit s).response = none := rfl
@[simp] theorem resetUnit_pending (s : State) : (resetUnit s).pending = s.pending := rfl
@[simp] theorem resetUnit_transcript (s : State) : (resetUnit s).transcript = s.transcript := rfl

@[simp] theorem issueWord_params (w : CmdWord) (s : State) : (issueWord w s).params = s.params := rfl
@[simp] theorem issueWord_cmd (w : CmdWord) (s : State) : (issueWord w s).cmd = s.cmd := rfl
@[simp] theorem issueWord_a (w : CmdWord) (s : State) : (issueWord w s).a = s.a := rfl
@[simp] theorem issueWord_b (w : CmdWord) (s : State) : (issueWord w s).b = s.b := rfl
@[simp] theorem issueWord_response (w : CmdWord) (s : State) : (issueWord w s).response = s.response := rfl
@[simp] theorem issueWord_pending (w : CmdWord) (s : State) : (issueWord w s).pending = .issue ⟨w, s.a, s.b⟩ :: s.pending := rfl
@[simp] theorem issueWord_transcript (w : CmdWord) (s : State) : (issueWord w s).transcript = s.transcript := rfl

/-- Recording changes the host's list alone, and only when a response exists. -/
theorem recordResponse_some (s : State) (r : Response) (h : s.response = some r) :
    recordResponse s = { s with transcript := s.transcript ++ [(⟨s.cmd, s.a, s.b⟩, r)] } := by
  simp [recordResponse, h]

@[simp] theorem recordResponse_respond (r : Response) (s : State) :
    recordResponse (respond r s) =
      { s with response := some r, transcript := s.transcript ++ [(⟨s.cmd, s.a, s.b⟩, r)] } := rfl

@[simp] theorem finish_next (s : State) : finish (.next s) = .next (recordResponse s) := rfl

@[simp] theorem finish_refused (r : Refusal) : finish (.refused r) = .refused r := rfl

theorem illegalCommand_status (s : State) (h : s.params.illegalPolicy = .status) :
    illegalCommand s = .next (respond (.err .illegalCommand) s) := by
  simp [illegalCommand, h, raiseKind]

theorem illegalCommand_refuse (s : State) (h : s.params.illegalPolicy = .refuse) :
    illegalCommand s = .refused .illegalCommand := by
  simp [illegalCommand, h]

theorem fetch_idle (s : State) (h : s.pending = []) : fetch s = .idle := by simp [fetch, h]

theorem fetch_issue (s : State) (c : Command) (rest : List HostAction) (h : s.pending = .issue c :: rest) :
    fetch s = .command (driveCommand c rest s) := by simp [fetch, h]

theorem fetch_reset (s : State) (rest : List HostAction) (h : s.pending = .reset :: rest) :
    fetch s = .quiet { s with response := none, pending := rest } := by simp [fetch, h, resetUnit]

theorem fetch_resetDuring (s : State) (c : Command) (rest : List HostAction) (h : s.pending = .resetDuring c :: rest) :
    fetch s = .quiet { s with cmd := c.cmd, a := c.a, b := c.b, response := none, pending := rest } := by
  simp [fetch, h, resetUnit, driveCommand]

/-- The fetch finds a command exactly when the host issues one next, and then it is on the ports. -/
theorem fetch_command_cases (s t : State) (h : fetch s = .command t) :
    ∃ c rest, s.pending = .issue c :: rest ∧ t = driveCommand c rest s := by
  unfold fetch at h
  split at h <;> simp at h
  exact ⟨_, _, ‹_›, h.symm⟩

/-- A quiet action leaves no response, and keeps the parameters and the host's list. -/
theorem fetch_quiet_cases (s t : State) (h : fetch s = .quiet t) :
    t.response = none ∧ t.params = s.params ∧ t.transcript = s.transcript := by
  unfold fetch at h
  split at h <;> simp at h <;> subst h <;> simp

end Sys2Proof.Machine
end

