-- ==== Sys2Proof/Tests/Slice0.lean ====
section
/-! SUPPORT. The model's own tests. Expected results are those of spec/95_test_vectors.md (tables V0 to V5 and the scenarios of
section 1.1) and of the encodings of spec/30_encoding.md R55; the witnesses show that the hypotheses of each statement of
Sys2Proof/Certificates/Slice0/Obligations.lean can be met, clause by clause and at the clause's boundary. -/

namespace Sys2Proof.Tests

open Sys2Proof.Machine

/-- A state with these words on the operand ports. -/
def ports (a b : Word) : State := { State.reset with a := a, b := b }

/-- The parameters with `NONCANONICAL_INPUT` and `ILLEGAL_COMMAND_POLICY` both `refuse`. -/
def strictParams : Params := { Params.default with noncanonical := .refuse, illegalPolicy := .refuse }

/-- As `ports`, under the strict parameters. -/
def strictPorts (a b : Word) : State := { ports a b with params := strictParams }

/-- The state after reset, with the host's actions to come. -/
def host (l : List HostAction) : State := { State.reset with pending := l }

/-- As `host`, under the strict parameters. -/
def strictHost (l : List HostAction) : State := { host l with params := strictParams }

/-- The response to the first command after reset. -/
def answer (c : Command) : Option Response :=
  match step (host [.issue c]) with
  | .next t => t.response
  | _ => none

/-- The responses to commands issued one after the other from reset. -/
def answers (l : List Command) : Option (List Response) :=
  match Sys2Proof.core.run l.length (host (l.map .issue)) with
  | .next t => some (t.transcript.map (fun e => e.2))
  | _ => none

/-- Whether the first step ends in this refusal. -/
def refusedWith (r : Refusal) (s : State) : Bool :=
  match step s with
  | .refused e => decide (e = r)
  | _ => false

/-! ### Decoding: every command word of R55, written out -/

theorem test_decode_norm : decode Params.default 0b00000000#8 = .ok .norm := by decide

theorem test_decode_zero : decode Params.default 0b00000001#8 = .ok .zero := by decide

theorem test_decode_one : decode Params.default 0b00000010#8 = .ok .one := by decide

theorem test_decode_iszero : decode Params.default 0b00000011#8 = .ok .iszero := by decide

theorem test_decode_isneg : decode Params.default 0b00000100#8 = .ok .isneg := by decide

theorem test_decode_neg : decode Params.default 0b00000101#8 = .ok .neg := by decide

theorem test_decode_abs : decode Params.default 0b00000110#8 = .ok .abs := by decide

theorem test_decode_fromu : decode Params.default 0b00010000#8 = .ok .fromu := by decide

theorem test_decode_negfromu : decode Params.default 0b00010001#8 = .ok .negfromu := by decide

theorem test_decode_tou : decode Params.default 0b00010010#8 = .ok .tou := by decide

theorem test_decode_cmp : decode Params.default 0b00100000#8 = .ok .cmp := by decide

theorem test_decode_eq : decode Params.default 0b00100001#8 = .ok .eq := by decide

theorem test_decode_lt : decode Params.default 0b00100010#8 = .ok .lt := by decide

theorem test_decode_gt : decode Params.default 0b00100011#8 = .ok .gt := by decide

theorem test_decode_lte : decode Params.default 0b00100100#8 = .ok .lte := by decide

theorem test_decode_gte : decode Params.default 0b00100101#8 = .ok .gte := by decide

theorem test_decode_adds : decode Params.default 0b00110000#8 = .ok .adds := by decide

theorem test_decode_subs : decode Params.default 0b00110001#8 = .ok .subs := by decide

theorem test_decode_muls : decode Params.default 0b00110010#8 = .ok .muls := by decide

theorem test_decode_divs : decode Params.default 0b00110011#8 = .ok .divs := by decide

theorem test_decode_addp : decode Params.default 0b01000000#8 = .ok .addp := by decide

theorem test_decode_subp : decode Params.default 0b01000001#8 = .ok .subp := by decide

theorem test_decode_mulp : decode Params.default 0b01000010#8 = .ok .mulp := by decide

theorem test_decode_divp : decode Params.default 0b01000011#8 = .ok .divp := by decide

theorem test_decode_first_gap : decode Params.default 0x07#8 = .error .unassignedFunction := by decide

theorem test_decode_unassigned_family : decode Params.default 0x50#8 = .error .unassignedFamily := by decide

theorem test_decode_aux_absent :
    decode { Params.default with includeAux := false } 0x25#8 = .error .auxiliaryAbsent := by decide

theorem test_table_word_other_size : decodeTableWord 16 0x05 = none := by decide

/-! ### Well-formedness: an ill-formed command is refused by the check -/

theorem test_ill_formed_conversion : Instr.fromu.wellFormed { Params.default with includeAux := false } = false := by decide

theorem test_ill_formed_comparison : Instr.cmp.wellFormed { Params.default with includeAux := false } = false := by decide

theorem test_core_command_stays : Instr.abs.wellFormed { Params.default with includeAux := false } = true := by decide

/-! ### One step for each command: rows of spec/95_test_vectors.md -/

theorem test_norm_negative_zero :
    answer ⟨0x00#8, 0x8000000000000000#64, 0x0000000000000000#64⟩ = some (.ok 0x0000000000000000#64) := by decide

theorem test_norm_minus_max :
    answer ⟨0x00#8, 0xFFFFFFFFFFFFFFFF#64, 0x0000000000000000#64⟩ = some (.ok 0xFFFFFFFFFFFFFFFF#64) := by decide

theorem test_zero_ports_ignored :
    answer ⟨0x01#8, 0xFFFFFFFFFFFFFFFF#64, 0xFFFFFFFFFFFFFFFF#64⟩ = some (.ok 0x0000000000000000#64) := by decide

theorem test_one_v0 :
    answer ⟨0x02#8, 0x0000000000000000#64, 0x0000000000000000#64⟩ = some (.ok 0x0000000000000001#64) := by decide

theorem test_iszero_negative_zero :
    answer ⟨0x03#8, 0x8000000000000000#64, 0x0000000000000000#64⟩ = some (.ok 0x0000000000000001#64) := by decide

theorem test_iszero_minus_one :
    answer ⟨0x03#8, 0x8000000000000001#64, 0x0000000000000000#64⟩ = some (.ok 0x0000000000000000#64) := by decide

theorem test_isneg_minus_one :
    answer ⟨0x04#8, 0x8000000000000001#64, 0x0000000000000000#64⟩ = some (.ok 0x0000000000000001#64) := by decide

theorem test_isneg_negative_zero :
    answer ⟨0x04#8, 0x8000000000000000#64, 0x0000000000000000#64⟩ = some (.ok 0x0000000000000000#64) := by decide

theorem test_neg_max :
    answer ⟨0x05#8, 0x7FFFFFFFFFFFFFFF#64, 0x0000000000000000#64⟩ = some (.ok 0xFFFFFFFFFFFFFFFF#64) := by decide

theorem test_neg_minus_five :
    answer ⟨0x05#8, 0x8000000000000005#64, 0x0000000000000000#64⟩ = some (.ok 0x0000000000000005#64) := by decide

theorem test_abs_minus_max :
    answer ⟨0x06#8, 0xFFFFFFFFFFFFFFFF#64, 0x0000000000000000#64⟩ = some (.ok 0x7FFFFFFFFFFFFFFF#64) := by decide

theorem test_abs_seven :
    answer ⟨0x06#8, 0x0000000000000007#64, 0x0000000000000000#64⟩ = some (.ok 0x0000000000000007#64) := by decide

theorem test_fromu_max :
    answer ⟨0x10#8, 0x7FFFFFFFFFFFFFFF#64, 0x0000000000000000#64⟩ = some (.ok 0x7FFFFFFFFFFFFFFF#64) := by decide

theorem test_fromu_overflow :
    answer ⟨0x10#8, 0x8000000000000000#64, 0x0000000000000000#64⟩ = some (.err .conversionOverflow) := by decide

theorem test_negfromu_zero :
    answer ⟨0x11#8, 0x0000000000000000#64, 0x0000000000000000#64⟩ = some (.ok 0x0000000000000000#64) := by decide

theorem test_negfromu_overflow :
    answer ⟨0x11#8, 0x8000000000000000#64, 0x0000000000000000#64⟩ = some (.err .conversionOverflow) := by decide

theorem test_tou_max :
    answer ⟨0x12#8, 0x7FFFFFFFFFFFFFFF#64, 0x0000000000000000#64⟩ = some (.ok 0x7FFFFFFFFFFFFFFF#64) := by decide

theorem test_tou_underflow :
    answer ⟨0x12#8, 0x8000000000000001#64, 0x0000000000000000#64⟩ = some (.err .conversionUnderflow) := by decide

theorem test_cmp_mixed_sign :
    answer ⟨0x20#8, 0x8000000000000005#64, 0x0000000000000003#64⟩ = some (.ok 0x0000000000000001#64) := by decide

theorem test_cmp_both_negative :
    answer ⟨0x20#8, 0x8000000000000001#64, 0x8000000000000002#64⟩ = some (.ok 0x0000000000000002#64) := by decide

theorem test_eq_negative_zero :
    answer ⟨0x21#8, 0x8000000000000000#64, 0x0000000000000000#64⟩ = some (.ok 0x0000000000000001#64) := by decide

theorem test_eq_opposite :
    answer ⟨0x21#8, 0x0000000000000001#64, 0x8000000000000001#64⟩ = some (.ok 0x0000000000000000#64) := by decide

theorem test_lt_minus_one_zero :
    answer ⟨0x22#8, 0x8000000000000001#64, 0x0000000000000000#64⟩ = some (.ok 0x0000000000000001#64) := by decide

theorem test_lt_equal :
    answer ⟨0x22#8, 0x0000000000000003#64, 0x0000000000000003#64⟩ = some (.ok 0x0000000000000000#64) := by decide

theorem test_gt_both_negative :
    answer ⟨0x23#8, 0x8000000000000001#64, 0x8000000000000002#64⟩ = some (.ok 0x0000000000000001#64) := by decide

theorem test_gt_equal :
    answer ⟨0x23#8, 0x0000000000000003#64, 0x0000000000000003#64⟩ = some (.ok 0x0000000000000000#64) := by decide

theorem test_lte_equal :
    answer ⟨0x24#8, 0x0000000000000003#64, 0x0000000000000003#64⟩ = some (.ok 0x0000000000000001#64) := by decide

theorem test_lte_max_minus_max :
    answer ⟨0x24#8, 0x7FFFFFFFFFFFFFFF#64, 0xFFFFFFFFFFFFFFFF#64⟩ = some (.ok 0x0000000000000000#64) := by decide

theorem test_gte_both_negative :
    answer ⟨0x25#8, 0x8000000000000002#64, 0x8000000000000001#64⟩ = some (.ok 0x0000000000000000#64) := by decide

theorem test_gte_equal :
    answer ⟨0x25#8, 0x0000000000000003#64, 0x0000000000000003#64⟩ = some (.ok 0x0000000000000001#64) := by decide

theorem test_adds_sum_fits_with_large_scalar :
    answer ⟨0x30#8, 0xFFFFFFFFFFFFFFFF#64, 0xFFFFFFFFFFFFFFFE#64⟩ = some (.ok 0x7FFFFFFFFFFFFFFF#64) := by decide

theorem test_adds_large_scalar_overflows :
    answer ⟨0x30#8, 0x0000000000000000#64, 0x8000000000000000#64⟩ = some (.err .addOverflow) := by decide

theorem test_subs_one_minus_two_pow_63 :
    answer ⟨0x31#8, 0x0000000000000001#64, 0x8000000000000000#64⟩ = some (.ok 0xFFFFFFFFFFFFFFFF#64) := by decide

theorem test_subs_underflow :
    answer ⟨0x31#8, 0x8000000000000001#64, 0x7FFFFFFFFFFFFFFF#64⟩ = some (.err .subUnderflow) := by decide

theorem test_muls_max_over_three :
    answer ⟨0x32#8, 0x8000000000000003#64, 0x2AAAAAAAAAAAAAAA#64⟩ = some (.ok 0xFFFFFFFFFFFFFFFE#64) := by decide

theorem test_muls_overflow :
    answer ⟨0x32#8, 0x0000000000000002#64, 0x7FFFFFFFFFFFFFFE#64⟩ = some (.err .mulOverflow) := by decide

theorem test_divs_truncates :
    answer ⟨0x33#8, 0x8000000000000007#64, 0x0000000000000002#64⟩ = some (.ok 0x8000000000000003#64) := by decide

theorem test_divs_by_zero :
    answer ⟨0x33#8, 0x0000000000000001#64, 0x0000000000000000#64⟩ = some (.err .divideByZero) := by decide

theorem test_addp_max_and_minus_max :
    answer ⟨0x40#8, 0x7FFFFFFFFFFFFFFF#64, 0xFFFFFFFFFFFFFFFF#64⟩ = some (.ok 0x0000000000000000#64) := by decide

theorem test_addp_both_negative_underflow :
    answer ⟨0x40#8, 0xFFFFFFFFFFFFFFFF#64, 0x8000000000000001#64⟩ = some (.err .subUnderflow) := by decide

theorem test_subp_three_minus_five :
    answer ⟨0x41#8, 0x0000000000000003#64, 0x0000000000000005#64⟩ = some (.ok 0x8000000000000002#64) := by decide

theorem test_subp_positive_overflow :
    answer ⟨0x41#8, 0x7FFFFFFFFFFFFFFF#64, 0x8000000000000001#64⟩ = some (.err .addOverflow) := by decide

theorem test_mulp_mixed_sign :
    answer ⟨0x42#8, 0x8000000100000000#64, 0x000000007FFFFFFF#64⟩ = some (.ok 0xFFFFFFFF00000000#64) := by decide

theorem test_mulp_overflow :
    answer ⟨0x42#8, 0x0000000100000000#64, 0x0000000080000000#64⟩ = some (.err .mulOverflow) := by decide

theorem test_divp_truncates :
    answer ⟨0x43#8, 0x0000000000000007#64, 0x8000000000000002#64⟩ = some (.ok 0x8000000000000003#64) := by decide

theorem test_divp_by_negative_zero :
    answer ⟨0x43#8, 0x0000000000000007#64, 0x8000000000000000#64⟩ = some (.err .divideByZero) := by decide

theorem test_illegal_command : answer ⟨0x34#8, 0x0000000000000001#64, 0x0000000000000001#64⟩ = some (.err .illegalCommand) := by
  decide

theorem test_illegal_status_port : statusOf (.err .illegalCommand) = 7#4 ∧ resultOf (.err .illegalCommand) = 0#64 := by decide

theorem test_illegal_refused : refusedWith .illegalCommand (strictHost [.issue ⟨0x07#8, negZero, negZero⟩]) = true := by decide

theorem test_negative_zero_refused : refusedWith .noncanonicalOperand (strictHost [.issue ⟨0x43#8, 5#64, negZero⟩]) = true := by
  decide

/-- Program P5 of spec/95_test_vectors.md, with the operands its table gives. -/
theorem test_dot_product :
    answers [⟨0x01#8, 0#64, 0#64⟩, ⟨0x42#8, 3#64, 0x8000000000000002#64⟩, ⟨0x40#8, 0#64, 0x8000000000000006#64⟩] =
      some [.ok 0#64, .ok 0x8000000000000006#64, .ok 0x8000000000000006#64] := by decide

theorem test_fetch_word_runs : ∃ t, step (State.reset.withFetchWord 8 0x02) = .next t ∧ t.response = some (.ok 1#64) :=
  ⟨_, rfl, rfl⟩

/-! ### Assembler: R58 and the encodings of spec/95_test_vectors.md -/

theorem test_assemble_subs :
    assemble ['s', 'u', 'B', 's', ' ', '-', '7', ',', ' ', '2', '3', '4'] =
      some ⟨0x31#8, 0x8000000000000007#64, 0x00000000000000EA#64⟩ := by decide

theorem test_assemble_raw_negative_zero :
    assemble (['N', 'O', 'R', 'M', ' ', '0', 'x', '8'] ++ List.replicate 15 '0') =
      some ⟨0x00#8, 0x8000000000000000#64, 0#64⟩ := by decide

theorem test_assemble_minus_zero : assemble ['A', 'B', 'S', ' ', '-', '0'] = some ⟨0x06#8, 0#64, 0#64⟩ := by decide

theorem test_assemble_minus_on_scalar : assemble ['F', 'R', 'O', 'M', 'U', ' ', '-', '1'] = none := by decide

theorem test_listing_zero :
    (listing Params.default ⟨0x01#8, 0xFF#64, 0xFF#64⟩).take 11 = ['C', 'M', 'D', '=', '0', 'x', '0', '1', ' ', 'A', '='] ∧
    (listing Params.default ⟨0x01#8, 0xFF#64, 0xFF#64⟩).drop 29 =
      [' ', 'B', '=', '0', 'x'] ++ List.replicate 16 '0' := by decide

/-! ### Witnesses: the hypotheses of each statement can be met -/

theorem witness_IllegalValuesExactly :
    IllegalValue Params.default 0x44#8 ∧ ¬ IllegalValue Params.default 0x43#8 := by decide

theorem witness_CanonicalWordsAreIntegers :
    Canonical 0xFFFFFFFFFFFFFFFF#64 ∧ InRange (-9223372036854775807) ∧ ¬ InRange (-9223372036854775808) := by decide

theorem witness_ComposeRule :
    0x7FFFFFFFFFFFFFFF ≤ maxMag := by decide

theorem witness_AddFitsExact :
    maxMag < 0x8000000000000000 := by decide

theorem witness_RangeKindTable_adds_in_range :
    operandsOk Params.default (rangeInstr .adds) 0x8000000000000001#64 0x8000000000000000#64 = true ∧ InRange (exactResult .adds 0x8000000000000001#64 0x8000000000000000#64) := by decide

theorem witness_RangeKindTable_adds_above :
    operandsOk Params.default (rangeInstr .adds) 1#64 0x7FFFFFFFFFFFFFFF#64 = true ∧ (maxMag : Int) < exactResult .adds 1#64 0x7FFFFFFFFFFFFFFF#64 := by decide

theorem witness_RangeKindTable_subs_in_range :
    operandsOk Params.default (rangeInstr .subs) 1#64 0x8000000000000000#64 = true ∧ InRange (exactResult .subs 1#64 0x8000000000000000#64) := by decide

theorem witness_RangeKindTable_subs_below :
    operandsOk Params.default (rangeInstr .subs) 0#64 0x8000000000000000#64 = true ∧ exactResult .subs 0#64 0x8000000000000000#64 < -(maxMag : Int) := by decide

theorem witness_RangeKindTable_addp_in_range :
    operandsOk Params.default (rangeInstr .addp) 0x7FFFFFFFFFFFFFFF#64 0#64 = true ∧ InRange (exactResult .addp 0x7FFFFFFFFFFFFFFF#64 0#64) := by decide

theorem witness_RangeKindTable_addp_above :
    operandsOk Params.default (rangeInstr .addp) 0x7FFFFFFFFFFFFFFF#64 1#64 = true ∧ (maxMag : Int) < exactResult .addp 0x7FFFFFFFFFFFFFFF#64 1#64 := by decide

theorem witness_RangeKindTable_addp_below :
    operandsOk Params.default (rangeInstr .addp) 0xFFFFFFFFFFFFFFFF#64 0x8000000000000001#64 = true ∧ exactResult .addp 0xFFFFFFFFFFFFFFFF#64 0x8000000000000001#64 < -(maxMag : Int) := by decide

theorem witness_RangeKindTable_subp_in_range :
    operandsOk Params.default (rangeInstr .subp) 0xFFFFFFFFFFFFFFFF#64 0#64 = true ∧ InRange (exactResult .subp 0xFFFFFFFFFFFFFFFF#64 0#64) := by decide

theorem witness_RangeKindTable_subp_above :
    operandsOk Params.default (rangeInstr .subp) 0x7FFFFFFFFFFFFFFF#64 0x8000000000000001#64 = true ∧ (maxMag : Int) < exactResult .subp 0x7FFFFFFFFFFFFFFF#64 0x8000000000000001#64 := by decide

theorem witness_RangeKindTable_subp_below :
    operandsOk Params.default (rangeInstr .subp) 0xFFFFFFFFFFFFFFFF#64 1#64 = true ∧ exactResult .subp 0xFFFFFFFFFFFFFFFF#64 1#64 < -(maxMag : Int) := by decide

theorem witness_RangeKindTable_muls_in_range :
    operandsOk Params.default (rangeInstr .muls) 0x7FFFFFFFFFFFFFFF#64 1#64 = true ∧ InRange (exactResult .muls 0x7FFFFFFFFFFFFFFF#64 1#64) := by decide

theorem witness_RangeKindTable_muls_above :
    operandsOk Params.default (rangeInstr .muls) 2#64 0x4000000000000000#64 = true ∧ (maxMag : Int) < exactResult .muls 2#64 0x4000000000000000#64 := by decide

theorem witness_RangeKindTable_muls_below :
    operandsOk Params.default (rangeInstr .muls) 0x8000000000000002#64 0x4000000000000000#64 = true ∧ exactResult .muls 0x8000000000000002#64 0x4000000000000000#64 < -(maxMag : Int) := by decide

theorem witness_RangeKindTable_mulp_in_range :
    operandsOk Params.default (rangeInstr .mulp) 0xFFFFFFFFFFFFFFFF#64 0x8000000000000001#64 = true ∧ InRange (exactResult .mulp 0xFFFFFFFFFFFFFFFF#64 0x8000000000000001#64) := by decide

theorem witness_RangeKindTable_mulp_above :
    operandsOk Params.default (rangeInstr .mulp) 0x7FFFFFFFFFFFFFFF#64 2#64 = true ∧ (maxMag : Int) < exactResult .mulp 0x7FFFFFFFFFFFFFFF#64 2#64 := by decide

theorem witness_RangeKindTable_mulp_below :
    operandsOk Params.default (rangeInstr .mulp) 0xFFFFFFFFFFFFFFFF#64 2#64 = true ∧ exactResult .mulp 0xFFFFFFFFFFFFFFFF#64 2#64 < -(maxMag : Int) := by decide

theorem witness_RangeKindTable_fromu_in_range :
    operandsOk Params.default (rangeInstr .fromu) 0x7FFFFFFFFFFFFFFF#64 0#64 = true ∧ InRange (exactResult .fromu 0x7FFFFFFFFFFFFFFF#64 0#64) := by decide

theorem witness_RangeKindTable_fromu_above :
    operandsOk Params.default (rangeInstr .fromu) 0x8000000000000000#64 0#64 = true ∧ (maxMag : Int) < exactResult .fromu 0x8000000000000000#64 0#64 := by decide

theorem witness_RangeKindTable_negfromu_in_range :
    operandsOk Params.default (rangeInstr .negfromu) 0x7FFFFFFFFFFFFFFF#64 0#64 = true ∧ InRange (exactResult .negfromu 0x7FFFFFFFFFFFFFFF#64 0#64) := by decide

theorem witness_RangeKindTable_negfromu_below :
    operandsOk Params.default (rangeInstr .negfromu) 0x8000000000000000#64 0#64 = true ∧ exactResult .negfromu 0x8000000000000000#64 0#64 < -(maxMag : Int) := by decide

theorem witness_signed_port_accepts_negative_zero :
    SignedOk (ports 0x8000000000000000#64 0#64).params (ports 0x8000000000000000#64 0#64).a ∧ SignedOk (ports 0#64 0x8000000000000000#64).params (ports 0#64 0x8000000000000000#64).b := by decide

theorem witness_signed_port_accepts_strict :
    SignedOk (strictPorts 0x8000000000000001#64 0xFFFFFFFFFFFFFFFF#64).params (strictPorts 0x8000000000000001#64 0xFFFFFFFFFFFFFFFF#64).a ∧ SignedOk (strictPorts 0x8000000000000001#64 0xFFFFFFFFFFFFFFFF#64).params (strictPorts 0x8000000000000001#64 0xFFFFFFFFFFFFFFFF#64).b := by decide

theorem witness_signed_port_refuses_a :
    ¬ SignedOk (strictPorts 0x8000000000000000#64 1#64).params (strictPorts 0x8000000000000000#64 1#64).a := by decide

theorem witness_signed_port_refuses_pair :
    ¬ (SignedOk (strictPorts 1#64 0x8000000000000000#64).params (strictPorts 1#64 0x8000000000000000#64).a ∧ SignedOk (strictPorts 1#64 0x8000000000000000#64).params (strictPorts 1#64 0x8000000000000000#64).b) := by decide

theorem witness_ZeroRule :
    Canonical 0#64 ∧ val 0#64 = 0 := by decide

theorem witness_Fromu_in_range :
    (ports 0x7FFFFFFFFFFFFFFF#64 0#64).a.toNat ≤ maxMag := by decide

theorem witness_Fromu_above :
    maxMag < (ports 0x8000000000000000#64 0#64).a.toNat := by decide

theorem witness_TouRule_non_negative :
    SignedOk (ports 0x8000000000000000#64 0#64).params (ports 0x8000000000000000#64 0#64).a ∧ 0 ≤ val (normalize (ports 0x8000000000000000#64 0#64).a) := by decide

theorem witness_TouRule_negative :
    SignedOk (ports 0x8000000000000001#64 0#64).params (ports 0x8000000000000001#64 0#64).a ∧ val (normalize (ports 0x8000000000000001#64 0#64).a) < 0 := by decide

theorem witness_AddsRule_in_range :
    SignedOk (ports 0xFFFFFFFFFFFFFFFF#64 0xFFFFFFFFFFFFFFFE#64).params (ports 0xFFFFFFFFFFFFFFFF#64 0xFFFFFFFFFFFFFFFE#64).a ∧ val (normalize (ports 0xFFFFFFFFFFFFFFFF#64 0xFFFFFFFFFFFFFFFE#64).a) + ((ports 0xFFFFFFFFFFFFFFFF#64 0xFFFFFFFFFFFFFFFE#64).b.toNat : Int) ≤ (maxMag : Int) := by decide

theorem witness_AddsRule_above :
    SignedOk (ports 0xFFFFFFFFFFFFFFFF#64 0xFFFFFFFFFFFFFFFF#64).params (ports 0xFFFFFFFFFFFFFFFF#64 0xFFFFFFFFFFFFFFFF#64).a ∧ (maxMag : Int) < val (normalize (ports 0xFFFFFFFFFFFFFFFF#64 0xFFFFFFFFFFFFFFFF#64).a) + ((ports 0xFFFFFFFFFFFFFFFF#64 0xFFFFFFFFFFFFFFFF#64).b.toNat : Int) := by decide

theorem witness_SubsRule_in_range :
    SignedOk (ports 0x8000000000000001#64 0x7FFFFFFFFFFFFFFE#64).params (ports 0x8000000000000001#64 0x7FFFFFFFFFFFFFFE#64).a ∧ -(maxMag : Int) ≤ val (normalize (ports 0x8000000000000001#64 0x7FFFFFFFFFFFFFFE#64).a) - ((ports 0x8000000000000001#64 0x7FFFFFFFFFFFFFFE#64).b.toNat : Int) := by decide

theorem witness_SubsRule_below :
    SignedOk (ports 0x8000000000000001#64 0x7FFFFFFFFFFFFFFF#64).params (ports 0x8000000000000001#64 0x7FFFFFFFFFFFFFFF#64).a ∧ val (normalize (ports 0x8000000000000001#64 0x7FFFFFFFFFFFFFFF#64).a) - ((ports 0x8000000000000001#64 0x7FFFFFFFFFFFFFFF#64).b.toNat : Int) < -(maxMag : Int) := by decide

theorem witness_MulsRule_in_range :
    SignedOk (ports 0x8000000000000003#64 0x2AAAAAAAAAAAAAAA#64).params (ports 0x8000000000000003#64 0x2AAAAAAAAAAAAAAA#64).a ∧ InRange (val (normalize (ports 0x8000000000000003#64 0x2AAAAAAAAAAAAAAA#64).a) * ((ports 0x8000000000000003#64 0x2AAAAAAAAAAAAAAA#64).b.toNat : Int)) := by decide

theorem witness_MulsRule_outside :
    SignedOk (ports 0x8000000000000003#64 0x2AAAAAAAAAAAAAAB#64).params (ports 0x8000000000000003#64 0x2AAAAAAAAAAAAAAB#64).a ∧ ¬ InRange (val (normalize (ports 0x8000000000000003#64 0x2AAAAAAAAAAAAAAB#64).a) * ((ports 0x8000000000000003#64 0x2AAAAAAAAAAAAAAB#64).b.toNat : Int)) := by decide

theorem witness_DivsRule_divides :
    SignedOk (ports 0xFFFFFFFFFFFFFFFF#64 1#64).params (ports 0xFFFFFFFFFFFFFFFF#64 1#64).a ∧ (ports 0xFFFFFFFFFFFFFFFF#64 1#64).b ≠ 0#64 := by decide

theorem witness_DivsRule_by_zero :
    SignedOk (ports 0xFFFFFFFFFFFFFFFF#64 0#64).params (ports 0xFFFFFFFFFFFFFFFF#64 0#64).a ∧ (ports 0xFFFFFFFFFFFFFFFF#64 0#64).b = 0#64 := by decide

theorem witness_AddpRule_in_range :
    SignedOk (ports 0x4000000000000000#64 0x3FFFFFFFFFFFFFFF#64).params (ports 0x4000000000000000#64 0x3FFFFFFFFFFFFFFF#64).a ∧ SignedOk (ports 0x4000000000000000#64 0x3FFFFFFFFFFFFFFF#64).params (ports 0x4000000000000000#64 0x3FFFFFFFFFFFFFFF#64).b ∧ InRange (val (normalize (ports 0x4000000000000000#64 0x3FFFFFFFFFFFFFFF#64).a) + val (normalize (ports 0x4000000000000000#64 0x3FFFFFFFFFFFFFFF#64).b)) := by decide

theorem witness_AddpRule_above :
    SignedOk (ports 0x4000000000000000#64 0x4000000000000000#64).params (ports 0x4000000000000000#64 0x4000000000000000#64).a ∧ SignedOk (ports 0x4000000000000000#64 0x4000000000000000#64).params (ports 0x4000000000000000#64 0x4000000000000000#64).b ∧ (maxMag : Int) < val (normalize (ports 0x4000000000000000#64 0x4000000000000000#64).a) + val (normalize (ports 0x4000000000000000#64 0x4000000000000000#64).b) := by decide

theorem witness_AddpRule_below :
    SignedOk (ports 0xC000000000000000#64 0xC000000000000000#64).params (ports 0xC000000000000000#64 0xC000000000000000#64).a ∧ SignedOk (ports 0xC000000000000000#64 0xC000000000000000#64).params (ports 0xC000000000000000#64 0xC000000000000000#64).b ∧ val (normalize (ports 0xC000000000000000#64 0xC000000000000000#64).a) + val (normalize (ports 0xC000000000000000#64 0xC000000000000000#64).b) < -(maxMag : Int) := by decide

theorem witness_SubpRule_in_range :
    SignedOk (ports 0#64 0xFFFFFFFFFFFFFFFF#64).params (ports 0#64 0xFFFFFFFFFFFFFFFF#64).a ∧ SignedOk (ports 0#64 0xFFFFFFFFFFFFFFFF#64).params (ports 0#64 0xFFFFFFFFFFFFFFFF#64).b ∧ InRange (val (normalize (ports 0#64 0xFFFFFFFFFFFFFFFF#64).a) - val (normalize (ports 0#64 0xFFFFFFFFFFFFFFFF#64).b)) := by decide

theorem witness_SubpRule_above :
    SignedOk (ports 0x7FFFFFFFFFFFFFFF#64 0x8000000000000001#64).params (ports 0x7FFFFFFFFFFFFFFF#64 0x8000000000000001#64).a ∧ SignedOk (ports 0x7FFFFFFFFFFFFFFF#64 0x8000000000000001#64).params (ports 0x7FFFFFFFFFFFFFFF#64 0x8000000000000001#64).b ∧ (maxMag : Int) < val (normalize (ports 0x7FFFFFFFFFFFFFFF#64 0x8000000000000001#64).a) - val (normalize (ports 0x7FFFFFFFFFFFFFFF#64 0x8000000000000001#64).b) := by decide

theorem witness_SubpRule_below :
    SignedOk (ports 0xFFFFFFFFFFFFFFFF#64 1#64).params (ports 0xFFFFFFFFFFFFFFFF#64 1#64).a ∧ SignedOk (ports 0xFFFFFFFFFFFFFFFF#64 1#64).params (ports 0xFFFFFFFFFFFFFFFF#64 1#64).b ∧ val (normalize (ports 0xFFFFFFFFFFFFFFFF#64 1#64).a) - val (normalize (ports 0xFFFFFFFFFFFFFFFF#64 1#64).b) < -(maxMag : Int) := by decide

theorem witness_MulpRule_in_range :
    SignedOk (ports 0x8000000000000001#64 0xFFFFFFFFFFFFFFFF#64).params (ports 0x8000000000000001#64 0xFFFFFFFFFFFFFFFF#64).a ∧ SignedOk (ports 0x8000000000000001#64 0xFFFFFFFFFFFFFFFF#64).params (ports 0x8000000000000001#64 0xFFFFFFFFFFFFFFFF#64).b ∧ InRange (val (normalize (ports 0x8000000000000001#64 0xFFFFFFFFFFFFFFFF#64).a) * val (normalize (ports 0x8000000000000001#64 0xFFFFFFFFFFFFFFFF#64).b)) := by decide

theorem witness_MulpRule_outside :
    SignedOk (ports 0x0000000100000000#64 0x0000000080000000#64).params (ports 0x0000000100000000#64 0x0000000080000000#64).a ∧ SignedOk (ports 0x0000000100000000#64 0x0000000080000000#64).params (ports 0x0000000100000000#64 0x0000000080000000#64).b ∧ ¬ InRange (val (normalize (ports 0x0000000100000000#64 0x0000000080000000#64).a) * val (normalize (ports 0x0000000100000000#64 0x0000000080000000#64).b)) := by decide

theorem witness_DivpRule_divides :
    SignedOk (ports 0xFFFFFFFFFFFFFFFF#64 0x8000000000000001#64).params (ports 0xFFFFFFFFFFFFFFFF#64 0x8000000000000001#64).a ∧ SignedOk (ports 0xFFFFFFFFFFFFFFFF#64 0x8000000000000001#64).params (ports 0xFFFFFFFFFFFFFFFF#64 0x8000000000000001#64).b ∧ val (normalize (ports 0xFFFFFFFFFFFFFFFF#64 0x8000000000000001#64).b) ≠ 0 := by decide

theorem witness_DivpRule_by_zero :
    SignedOk (ports 7#64 0x8000000000000000#64).params (ports 7#64 0x8000000000000000#64).a ∧ SignedOk (ports 7#64 0x8000000000000000#64).params (ports 7#64 0x8000000000000000#64).b ∧ val (normalize (ports 7#64 0x8000000000000000#64).b) = 0 := by decide

theorem witness_canonical_ports :
    Canonical (ports 0xFFFFFFFFFFFFFFFF#64 0x7FFFFFFFFFFFFFFF#64).a ∧ Canonical (ports 0xFFFFFFFFFFFFFFFF#64 0x7FFFFFFFFFFFFFFF#64).b := by decide

theorem witness_NormalizerFamilyLaws :
    Canonical (ports 0xFFFFFFFFFFFFFFFF#64 0#64).a ∧ Canonical (ports 0#64 0#64).a := by decide

theorem witness_NegfromuIsNegOfFromu_returns :
    ∃ v : Word, exec .fromu (ports 0x7FFFFFFFFFFFFFFF#64 0#64) = .next { ports 0x7FFFFFFFFFFFFFFF#64 0#64 with response := some (.ok v) } := ⟨_, rfl⟩

theorem witness_NegfromuIsNegOfFromu_raises :
    ∃ k : ErrorKind, exec .fromu (ports 0x8000000000000000#64 0#64) = .next { ports 0x8000000000000000#64 0#64 with response := some (.err k) } := ⟨_, rfl⟩

theorem witness_PairCommutativity :
    ∃ r : Response, exec .addp (ports 0xFFFFFFFFFFFFFFFF#64 0x8000000000000001#64) = .next { ports 0xFFFFFFFFFFFFFFFF#64 0x8000000000000001#64 with response := some r } := ⟨_, rfl⟩

theorem witness_EveryCommandCompletes :
    Instr.all.all (fun i => operandsOk (ports 0x8000000000000000#64 0x8000000000000000#64).params i (ports 0x8000000000000000#64 0x8000000000000000#64).a (ports 0x8000000000000000#64 0x8000000000000000#64).b) = true := by decide

theorem witness_commands_answer_next :
    ∃ t, exec .subp (ports 0xFFFFFFFFFFFFFFFF#64 1#64) = .next t ∧ t.response = some (.err .subUnderflow) ∧ statusPort t = some 4#4 := ⟨_, rfl, rfl, rfl⟩

theorem witness_commands_answer_ok :
    ∃ t, exec .divs (ports 0xFFFFFFFFFFFFFFFF#64 2#64) = .next t ∧ t.response = some (.ok 0xBFFFFFFFFFFFFFFF#64) := ⟨_, rfl, rfl⟩

theorem witness_IgnoredPortsDoNotMatter :
    (Instr.neg.form.portA ≠ .ignored → (5#64 : Word) = (ports 5#64 1#64).a) ∧ (Instr.neg.form.portB ≠ .ignored → (9#64 : Word) = (ports 5#64 1#64).b) := by decide

theorem witness_IgnoredPortsDoNotMatter_refused :
    exec .neg (strictPorts 0x8000000000000000#64 1#64) = .refused .noncanonicalOperand := rfl

theorem witness_StepRunsDecodedCommand_returns :
    (host [.issue ⟨0x40#8, 3#64, 0x8000000000000005#64⟩]).pending = .issue ⟨0x40#8, 3#64, 0x8000000000000005#64⟩ :: [] ∧ decode (host [.issue ⟨0x40#8, 3#64, 0x8000000000000005#64⟩]).params 0x40#8 = .ok .addp ∧
    ∃ r, exec .addp { host [] with cmd := 0x40#8, a := 3#64, b := 0x8000000000000005#64 } =
      .next { host [] with cmd := 0x40#8, a := 3#64, b := 0x8000000000000005#64, response := some r } := ⟨rfl, rfl, _, rfl⟩

theorem witness_StepRunsDecodedCommand_refused :
    decode strictParams 0x05#8 = .ok .neg ∧
    exec .neg { strictHost [] with cmd := 0x05#8, a := 0x8000000000000000#64, b := 0#64 } = .refused .noncanonicalOperand := ⟨rfl, rfl⟩

theorem witness_CheckOrder_illegal :
    ∃ e, decode (host [.issue ⟨0xFF#8, 0x8000000000000000#64, 0x8000000000000000#64⟩]).params 0xFF#8 = .error e ∧
    (host []).params.illegalPolicy = .status ∧ (strictHost []).params.illegalPolicy = .refuse := ⟨_, rfl, rfl, rfl⟩

theorem witness_CheckOrder_refused :
    operandsOk strictParams .divp 0x8000000000000000#64 0#64 = false := by decide

theorem witness_CheckOrder_completes :
    operandsOk strictParams .divp 0xFFFFFFFFFFFFFFFF#64 0#64 = true ∧ decode strictParams 0x43#8 = .ok .divp := by decide

theorem witness_IllegalCommandRule :
    (host [.issue ⟨0x44#8, 0#64, 0#64⟩]).pending = [.issue ⟨0x44#8, 0#64, 0#64⟩] ∧ IllegalValue (host []).params 0x44#8 := by decide

theorem witness_IllegalCommandRule_refuse :
    (strictHost [.issue ⟨0x07#8, 0#64, 0#64⟩]).params.illegalPolicy = .refuse ∧ IllegalValue (strictHost []).params 0x07#8 := by decide

theorem witness_ResponseDependsOnlyOnCommand :
    ∃ t, step (host [.issue ⟨0x40#8, 3#64, 0x8000000000000005#64⟩, .reset]) = .next t ∧ (host []).params = (ports 1#64 2#64).params := ⟨_, rfl, rfl⟩

theorem witness_ResponseDependsOnlyOnCommand_refused :
    ∃ e, step (strictHost [.issue ⟨0x05#8, 0x8000000000000000#64, 0#64⟩]) = .refused e := ⟨_, rfl⟩

theorem witness_OrderOfCommandsDoesNotMatter :
    ∃ t u, step (host [.issue ⟨0x40#8, 3#64, 0x8000000000000005#64⟩, .issue ⟨0x33#8, 1#64, 0#64⟩]) = .next t ∧ step t = .next u := ⟨_, _, rfl, rfl⟩

theorem witness_ResetRule :
    (host [.reset]).pending = .reset :: [] ∧ (host [.resetDuring ⟨0x40#8, 3#64, 0x8000000000000005#64⟩]).pending = .resetDuring ⟨0x40#8, 3#64, 0x8000000000000005#64⟩ :: [] ∧
    ∃ t, step (host [.issue ⟨0x40#8, 3#64, 0x8000000000000005#64⟩]) = .next t := ⟨rfl, rfl, _, rfl⟩

theorem witness_IdleStepChangesNothing :
    (host []).pending = [] := rfl

theorem witness_StepKeepsConformingState :
    conformingState (host [.issue ⟨0x40#8, 3#64, 0x8000000000000005#64⟩]) = true ∧ ∃ t, step (host [.issue ⟨0x40#8, 3#64, 0x8000000000000005#64⟩]) = .next t := ⟨by decide, _, rfl⟩

theorem witness_DecimalLiterals :
    0x7FFFFFFFFFFFFFFF ≤ maxMag ∧ maxMag < 0x8000000000000000 ∧ 0xFFFFFFFFFFFFFFFF < 2 ^ 64 ∧ 2 ^ 64 ≤ 0x10000000000000000 := by decide

end Sys2Proof.Tests
end

section
/-! PROOFS. The statements of spec/10_state.md. First every command's response as a function of its operand words, and what
`exec` and `step` answer in terms of it; then the two statements follow from facts about that response. -/

namespace Sys2Proof.Machine

/-! ### When the operands of a command have a meaning -/

@[simp] theorem portOk_ignored (p : Params) (w : Word) : portOk p .ignored w = true := rfl

@[simp] theorem portOk_raw (p : Params) (w : Word) : portOk p .raw w = true := rfl

@[simp] theorem portOk_scalar (p : Params) (w : Word) : portOk p .scalar w = true := rfl

theorem portOk_signed_iff (p : Params) (w : Word) : portOk p .signed w = true ↔ SignedOk p w := decide_eq_true_iff

theorem operandsOk_of_no_signed_port (p : Params) (i : Instr) (a b : Word)
    (h : i.form = .none ∨ i.form = .raw ∨ i.form = .u) : operandsOk p i a b = true := by
  rcases h with h | h | h <;> simp [operandsOk, h, OperandForm.portA, OperandForm.portB]

theorem operandsOk_signed_a_iff (p : Params) (i : Instr) (a b : Word) (h : i.form = .s ∨ i.form = .su) :
    operandsOk p i a b = true ↔ SignedOk p a := by
  rw [← portOk_signed_iff]
  rcases h with h | h <;> simp [operandsOk, h, OperandForm.portA, OperandForm.portB]

theorem operandsOk_pair_iff (p : Params) (i : Instr) (a b : Word) (h : i.form = .ss) :
    operandsOk p i a b = true ↔ SignedOk p a ∧ SignedOk p b := by
  rw [← portOk_signed_iff, ← portOk_signed_iff]
  simp [operandsOk, h, OperandForm.portA, OperandForm.portB]

/-! ### The response of a command -/

/-- The response of a command to the words on ports A and B, where they have a meaning (R52, R74): a signed port is read
through `normalize`, a scalar port as a number. `exec_of_operandsOk` ties it to the model. -/
def responseOf (i : Instr) (a b : Word) : Response :=
  match i with
  | .norm => normResponse a
  | .zero => returnWord 0#64
  | .one => returnWord 1#64
  | .iszero => iszeroResponse (normalize a)
  | .isneg => isnegResponse (normalize a)
  | .neg => negResponse (normalize a)
  | .abs => absResponse (normalize a)
  | .fromu => fromuResponse a.toNat
  | .negfromu => negfromuResponse a.toNat
  | .tou => touResponse (normalize a)
  | .cmp => cmpResponse (normalize a) (normalize b)
  | .eq => eqResponse (normalize a) (normalize b)
  | .lt => ltResponse (normalize a) (normalize b)
  | .gt => gtResponse (normalize a) (normalize b)
  | .lte => lteResponse (normalize a) (normalize b)
  | .gte => gteResponse (normalize a) (normalize b)
  | .adds => addsResponse (normalize a) b.toNat
  | .subs => subsResponse (normalize a) b.toNat
  | .muls => mulsResponse (normalize a) b.toNat
  | .divs => divsResponse (normalize a) b.toNat
  | .addp => addpResponse (normalize a) (normalize b)
  | .subp => subpResponse (normalize a) (normalize b)
  | .mulp => mulpResponse (normalize a) (normalize b)
  | .divp => divpResponse (normalize a) (normalize b)

/-- A command whose operands have a meaning completes, and changes the response alone (R28, R196). -/
theorem exec_of_operandsOk (i : Instr) (s : State) (h : operandsOk s.params i s.a s.b = true) :
    exec i s = .next (respond (responseOf i s.a s.b) s) := by
  cases i with
  | norm | zero | one | fromu | negfromu => rfl
  | iszero | isneg | neg | abs | tou =>
    exact formS_ok _ s ((operandsOk_signed_a_iff _ _ _ _ (.inl rfl)).1 h)
  | adds | subs | muls | divs =>
    exact formSU_ok _ s ((operandsOk_signed_a_iff _ _ _ _ (.inr rfl)).1 h)
  | cmp | eq | lt | gt | lte | gte | addp | subp | mulp | divp =>
    obtain ⟨ha, hb⟩ := (operandsOk_pair_iff _ _ _ _ rfl).1 h
    exact formSS_ok _ s ha hb

/-- A command with an operand that has no meaning is refused (R74). -/
theorem exec_of_not_operandsOk (i : Instr) (s : State) (h : ¬ operandsOk s.params i s.a s.b = true) :
    exec i s = .refused .noncanonicalOperand := by
  cases i with
  | norm | zero | one | fromu | negfromu =>
    exact absurd (operandsOk_of_no_signed_port _ _ _ _ (by decide)) h
  | iszero | isneg | neg | abs | tou =>
    exact formS_refuse _ s (mt (operandsOk_signed_a_iff _ _ _ _ (.inl rfl)).2 h)
  | adds | subs | muls | divs =>
    exact formSU_refuse _ s (mt (operandsOk_signed_a_iff _ _ _ _ (.inr rfl)).2 h)
  | cmp | eq | lt | gt | lte | gte | addp | subp | mulp | divp =>
    exact formSS_refuse _ s (mt (operandsOk_pair_iff _ _ _ _ rfl).2 h)

/-- The inversion of `exec`: a next state exists only for operands with a meaning, and it is the old one with the command's
response. -/
theorem exec_next_cases (i : Instr) (s t : State) (h : exec i s = .next t) :
    operandsOk s.params i s.a s.b = true ∧ t = respond (responseOf i s.a s.b) s := by
  by_cases hok : operandsOk s.params i s.a s.b = true
  · rw [exec_of_operandsOk i s hok] at h
    cases h
    exact ⟨hok, rfl⟩
  · rw [exec_of_not_operandsOk i s hok] at h
    cases h

/-! ### RESULT is canonical -/

@[simp] theorem resultPort_respond (r : Response) (s : State) : resultPort (respond r s) = some (resultOf r) := rfl

@[simp] theorem resultOf_returnWord (v : Word) : resultOf (returnWord v) = v := rfl

@[simp] theorem resultOf_raiseKind (k : ErrorKind) : resultOf (raiseKind k) = 0#64 := rfl

theorem zero_canonical : Canonical 0#64 := by decide

theorem compose_canonical (neg : Bool) (m : Nat) : Canonical (compose neg m) := normalize_canonical _

theorem boolWord_canonical (b : Bool) : Canonical (boolWord b) := by cases b <;> decide

theorem orderingCode_canonical (c : CmpResult) : Canonical (orderingCode c) := by cases c <;> decide

theorem negateWord_canonical (a : Word) : Canonical (negateWord a) := by
  unfold negateWord
  split_ifs
  · exact zero_canonical
  · exact normalize_canonical _
  · exact normalize_canonical _

theorem resultOf_absResponse_canonical (a : Word) (h : Canonical a) : Canonical (resultOf (absResponse a)) := by
  unfold absResponse
  split_ifs with hneg
  · have hlt := a.isLt
    apply canonical_ofNat <;> unfold signBit <;> omega
  · exact h

theorem resultOf_touResponse_canonical (a : Word) (h : Canonical a) : Canonical (resultOf (touResponse a)) := by
  unfold touResponse
  split_ifs
  · exact zero_canonical
  · exact h

/-- A guarded command raises its kind or composes its result (R120); RESULT is canonical either way. -/
theorem resultOf_raise_or_compose_canonical (c : Bool) (k : ErrorKind) (neg : Bool) (m : Nat) :
    Canonical (resultOf (if c then raiseKind k else returnWord (compose neg m))) := by
  split_ifs
  · exact zero_canonical
  · exact compose_canonical _ _

theorem resultOf_addsResponse_canonical (a : Word) (s : Nat) : Canonical (resultOf (addsResponse a s)) := by
  unfold addsResponse
  split
  · exact resultOf_raise_or_compose_canonical _ _ _ _
  · split
    · exact resultOf_raise_or_compose_canonical _ _ _ _
    · exact compose_canonical _ _

theorem resultOf_subsResponse_canonical (a : Word) (s : Nat) : Canonical (resultOf (subsResponse a s)) := by
  unfold subsResponse
  split
  · exact resultOf_raise_or_compose_canonical _ _ _ _
  · split
    · exact compose_canonical _ _
    · exact resultOf_raise_or_compose_canonical _ _ _ _

theorem resultOf_combineSigned_canonical (na : Bool) (ma : Nat) (nb : Bool) (mb : Nat) :
    Canonical (resultOf (combineSigned na ma nb mb)) := by
  unfold combineSigned
  split
  · rw [← apply_ite raiseKind]
    exact resultOf_raise_or_compose_canonical _ _ _ _
  · split
    · exact compose_canonical _ _
    · exact compose_canonical _ _

/-- Every response shows a canonical word on RESULT (R26, R172). -/
theorem resultOf_responseOf_canonical (i : Instr) (a b : Word) : Canonical (resultOf (responseOf i a b)) := by
  cases i with
  | norm => exact normalize_canonical a
  | zero => exact zero_canonical
  | one => exact (by decide : Canonical 1#64)
  | iszero | isneg | eq | lt | gt | lte | gte => exact boolWord_canonical _
  | cmp => exact orderingCode_canonical _
  | neg => exact negateWord_canonical _
  | abs => exact resultOf_absResponse_canonical _ (normalize_canonical a)
  | tou => exact resultOf_touResponse_canonical _ (normalize_canonical a)
  | fromu | negfromu | muls | divs | mulp | divp => exact resultOf_raise_or_compose_canonical _ _ _ _
  | adds => exact resultOf_addsResponse_canonical _ _
  | subs => exact resultOf_subsResponse_canonical _ _
  | addp | subp => exact resultOf_combineSigned_canonical _ _ _ _

/-- Settles O40: the next state of a command shows the result of its response, which is canonical. -/
theorem resultNeverNegativeZero : Obligations.ResultNeverNegativeZero := by
  intro i s t h
  obtain ⟨-, rfl⟩ := exec_next_cases i s t h
  rw [resultPort_respond]
  exact ⟨Option.some_ne_none _, fun hz => resultOf_responseOf_canonical i s.a s.b (Option.some.inj hz)⟩

/-! ### The step of an issued command -/

theorem step_issue_legal (s : State) (c : Command) (rest : List HostAction) (i : Instr)
    (h : s.pending = .issue c :: rest) (hd : decode s.params c.cmd = .ok i) :
    step s = finish (exec i (driveCommand c rest s)) := by
  simp [step, fetch_issue s c rest h, decodePort, hd]

theorem step_issue_illegal (s : State) (c : Command) (rest : List HostAction) (e : IllegalCmd)
    (h : s.pending = .issue c :: rest) (hd : decode s.params c.cmd = .error e) :
    step s = finish (illegalCommand (driveCommand c rest s)) := by
  simp [step, fetch_issue s c rest h, decodePort, hd]

/-- What an instance with these parameters answers to a command: one response, or a refusal (R74, R175, R176). That no state
is among its arguments is R28; `step_issue_eq` ties it to the model. -/
def answerTo (p : Params) (c : Command) : Except Refusal Response :=
  match decode p c.cmd with
  | .ok i => if operandsOk p i c.a c.b then .ok (responseOf i c.a c.b) else .error .noncanonicalOperand
  | .error _ =>
    match p.illegalPolicy with
    | .status => .ok (.err .illegalCommand)
    | .refuse => .error .illegalCommand

theorem answerTo_legal (p : Params) (c : Command) (i : Instr) (hd : decode p c.cmd = .ok i) :
    answerTo p c =
      if operandsOk p i c.a c.b then .ok (responseOf i c.a c.b) else .error .noncanonicalOperand := by
  simp [answerTo, hd]

theorem answerTo_illegal_status (p : Params) (c : Command) (e : IllegalCmd) (hd : decode p c.cmd = .error e)
    (hp : p.illegalPolicy = .status) : answerTo p c = .ok (.err .illegalCommand) := by
  simp [answerTo, hd, hp]

theorem answerTo_illegal_refuse (p : Params) (c : Command) (e : IllegalCmd) (hd : decode p c.cmd = .error e)
    (hp : p.illegalPolicy = .refuse) : answerTo p c = .error .illegalCommand := by
  simp [answerTo, hd, hp]

/-- The outcome of a command on the ports of `s` that gets this answer. -/
def outcomeOf (answer : Except Refusal Response) (s : State) : Host.Outcome State Fault Refusal :=
  match answer with
  | .ok r => .next (respond r s)
  | .error e => .refused e

@[simp] theorem outcomeOf_ok (r : Response) (s : State) : outcomeOf (.ok r) s = .next (respond r s) := rfl

@[simp] theorem outcomeOf_error (e : Refusal) (s : State) : outcomeOf (.error e) s = .refused e := rfl

/-- The step of an issued command: it is driven on the ports, answered by `answerTo`, and an answer is recorded (R45). -/
theorem step_issue_eq (s : State) (c : Command) (rest : List HostAction) (h : s.pending = .issue c :: rest) :
    step s = finish (outcomeOf (answerTo s.params c) (driveCommand c rest s)) := by
  cases hd : decode s.params c.cmd with
  | ok i =>
    rw [step_issue_legal s c rest i h hd, answerTo_legal _ c i hd]
    by_cases hok : operandsOk s.params i c.a c.b = true
    · rw [if_pos hok, exec_of_operandsOk i (driveCommand c rest s) hok]
      rfl
    · rw [if_neg hok, exec_of_not_operandsOk i (driveCommand c rest s) hok]
      rfl
  | error e =>
    rw [step_issue_illegal s c rest e h hd]
    cases hp : s.params.illegalPolicy with
    | status => rw [answerTo_illegal_status _ c e hd hp, illegalCommand_status (driveCommand c rest s) hp, outcomeOf_ok]
    | refuse => rw [answerTo_illegal_refuse _ c e hd hp, illegalCommand_refuse (driveCommand c rest s) hp, outcomeOf_error]

/-- Settles O48: both steps are that of the same `answerTo`, which sees the parameters and the command alone. -/
theorem responseDependsOnlyOnCommand : Obligations.ResponseDependsOnlyOnCommand := by
  intro s s' c rest rest' hp h h'
  rw [step_issue_eq s c rest h, step_issue_eq s' c rest' h', hp]
  cases answerTo s'.params c with
  | ok r =>
    refine ⟨fun t ht => ?_, fun e he => (by cases he)⟩
    cases ht
    exact ⟨_, rfl, rfl, rfl, rfl, rfl⟩
  | error e => exact ⟨fun t ht => (by cases ht), fun e' he => he⟩

end Sys2Proof.Machine
end

section
/-! PROOFS. The statements of spec/40_normalizer.md. First what the helper functions of its section 1 denote as integers;
then each command's response in terms of the value of its operand; then the statements, which read the response off `exec`. -/

namespace Sys2Proof.Machine

/-! ### The value of a word -/

theorem maxMag_lt_signBit : maxMag < signBit := by decide

theorem val_of_le_maxMag (w : Word) (h : w.toNat ≤ maxMag) : val w = (w.toNat : Int) := by
  have hneg : isNeg w = false := (isNeg_false_iff w).2 (h.trans maxMag_lt_signBit.le)
  rw [val, mag, hneg]
  rfl

theorem val_of_signBit_lt (w : Word) (h : signBit < w.toNat) : val w = -((w.toNat - signBit : Nat) : Int) := by
  have hneg : isNeg w = true := (isNeg_iff w).2 h
  rw [val, mag, if_pos hneg, if_pos hneg]

theorem val_ofNat (m : Nat) (h : m ≤ maxMag) : val (BitVec.ofNat 64 m) = (m : Int) := by
  have hm : (BitVec.ofNat 64 m).toNat = m := by
    rw [BitVec.toNat_ofNat, Nat.mod_eq_of_lt (by unfold maxMag at h; omega)]
  rw [val_of_le_maxMag _ (by rwa [hm]), hm]

theorem val_ofNat_signBit_add (m : Nat) (hpos : 0 < m) (h : m ≤ maxMag) :
    val (BitVec.ofNat 64 (signBit + m)) = -(m : Int) := by
  have hm : (BitVec.ofNat 64 (signBit + m)).toNat = signBit + m := by
    rw [BitVec.toNat_ofNat, Nat.mod_eq_of_lt (by unfold signBit; unfold maxMag at h; omega)]
  rw [val_of_signBit_lt _ (by omega), hm, Nat.add_sub_cancel_left]

/-- `wordOfInt` is a right inverse of `val` on the valid range (R15). -/
theorem val_wordOfInt (n : Int) (h : InRange n) : val (wordOfInt n) = n := by
  obtain ⟨hlo, hhi⟩ := h
  unfold wordOfInt
  split
  · rw [val_ofNat _ (by omega)]
    omega
  · rw [val_ofNat_signBit_add _ (by omega) (by omega)]
    omega

/-- `val` of the word that `compose` gives is the signed magnitude (R73). -/
theorem val_compose (neg : Bool) (m : Nat) (h : m ≤ maxMag) : val (compose neg m) = signedInt neg m := by
  rw [compose_eq_wordOfInt neg m h]
  refine val_wordOfInt _ ?_
  cases neg <;> simp [InRange] <;> omega

theorem val_eq_zero_iff (w : Word) (h : Canonical w) : val w = 0 ↔ w = 0#64 := by
  constructor
  · intro hz
    apply BitVec.eq_of_toNat_eq
    rcases canonical_cases w h with ⟨-, -, -, hval⟩ | ⟨-, -, hpos, -, hval⟩
    · rw [BitVec.toNat_ofNat]
      omega
    · omega
  · rintro rfl
    decide

/-! ### The responses of the family, by the value of the operand -/

theorem normResponse_eq (w : Word) :
    normResponse w = .ok (if w = 0x8000000000000000#64 then 0#64 else w) := by
  by_cases hz : w = negZero
  · rw [hz]
    rfl
  · rw [normResponse, normalize_of_canonical w hz]
    exact congrArg Response.ok (if_neg hz).symm

theorem boolWord_decide (p : Prop) [Decidable p] : boolWord (decide p) = if p then 1#64 else 0#64 := by
  simp [boolWord]

theorem iszeroResponse_eq (w : Word) (h : Canonical w) :
    iszeroResponse w = .ok (if val w = 0 then 1#64 else 0#64) := by
  simp only [iszeroResponse, returnWord, boolWord_decide, val_eq_zero_iff w h]

theorem isnegResponse_eq (w : Word) (h : Canonical w) :
    isnegResponse w = .ok (if val w < 0 then 1#64 else 0#64) := by
  rw [isnegResponse, returnWord, isNeg_eq_val_neg w h, boolWord_decide]

/-- Bit 63 is the sign bit: it is clear exactly below 2^63 (R71). -/
theorem getLsbD_sign_false_iff (w : Word) : w.getLsbD 63 = false ↔ w.toNat < signBit := by
  have hmsb : w.getLsbD 63 = w.msb := rfl
  rw [hmsb, BitVec.msb_eq_false_iff_two_mul_lt]
  unfold signBit
  omega

/-- The bit-level sign flip composes the magnitude with the opposite sign (R80). -/
theorem negateWord_eq_compose (w : Word) (h : Canonical w) : negateWord w = compose (!isNeg w) (mag w) := by
  unfold negateWord
  rcases canonical_cases w h with ⟨hneg, hmag, hle, -⟩ | ⟨hneg, hmag, hpos, -, -⟩
  · have hclear : w.getLsbD 63 = false := (getLsbD_sign_false_iff w).2 (hle.trans_lt maxMag_lt_signBit)
    by_cases hzero : w = 0#64
    · subst hzero
      rfl
    · rw [if_neg hzero, if_pos hclear, hneg, hmag, Nat.add_comm]
      rfl
  · have hzero : w ≠ 0#64 := by
      rintro rfl
      exact absurd hneg (by decide)
    have hset : ¬ w.getLsbD 63 = false := by
      rw [getLsbD_sign_false_iff]
      omega
    rw [if_neg hzero, if_neg hset, hneg, show w.toNat - signBit = mag w by omega]
    rfl

/-- NEG's word denotes the negated value; the valid range is symmetric, so it always fits (R80). -/
theorem negResponse_eq (w : Word) (h : Canonical w) : negResponse w = .ok (wordOfInt (-val w)) := by
  rw [negResponse, returnWord, negateWord_eq_compose w h, compose_eq_wordOfInt _ _ (mag_le_max w h)]
  unfold val
  cases isNeg w <;> simp

theorem wordOfInt_natCast (n : Nat) : wordOfInt (n : Int) = BitVec.ofNat 64 n := by
  simp [wordOfInt]

/-- ABS's word is that of the magnitude (R81). -/
theorem absResponse_eq (w : Word) : absResponse w = .ok (wordOfInt |val w|) := by
  rw [← Int.natCast_natAbs, ← mag_eq_natAbs, wordOfInt_natCast]
  unfold absResponse returnWord mag
  split
  · rfl
  · rw [BitVec.ofNat_toNat, BitVec.setWidth_eq]

/-! ### `exec` of a command without a signed port, and of one with port A signed -/

theorem exec_of_no_signed_port (i : Instr) (hform : i.form = .none ∨ i.form = .raw ∨ i.form = .u) (s : State)
    (r : Response) (hr : responseOf i s.a s.b = r) : exec i s = .next (respond r s) := by
  subst hr
  exact exec_of_operandsOk i s (operandsOk_of_no_signed_port _ _ _ _ hform)

/-- A command of form `s` completes with its response on an accepted word and is refused on any other (R52, R74). -/
theorem exec_of_form_s (i : Instr) (hform : i.form = .s) (s : State) (r : Response)
    (hr : responseOf i s.a s.b = r) :
    (SignedOk s.params s.a → exec i s = .next (respond r s)) ∧
    (¬ SignedOk s.params s.a → exec i s = .refused .noncanonicalOperand) := by
  subst hr
  rw [← operandsOk_signed_a_iff s.params i s.a s.b (.inl hform)]
  exact ⟨exec_of_operandsOk i s, exec_of_not_operandsOk i s⟩

/-! ### The statements -/

/-- Settles O5: `compose` ends in `normalize`, and its value is `val_compose`. -/
theorem composeRule : Obligations.ComposeRule :=
  ⟨fun neg m h => ⟨rfl, compose_canonical neg m, val_compose neg m h⟩, rfl⟩

/-- Settles O12: the word is 0 exactly when its value is 0. -/
theorem iszeroRule : Obligations.IszeroRule :=
  ⟨rfl, fun s => exec_of_form_s .iszero rfl s _ (iszeroResponse_eq _ (normalize_canonical s.a))⟩

/-- Settles O13: the sign test on a canonical word says that its value is below 0. -/
theorem isnegRule : Obligations.IsnegRule :=
  ⟨rfl, fun s => exec_of_form_s .isneg rfl s _ (isnegResponse_eq _ (normalize_canonical s.a))⟩

/-- Settles O14: the sign flip is the word of the negated value. -/
theorem negRule : Obligations.NegRule :=
  ⟨rfl, fun s => exec_of_form_s .neg rfl s _ (negResponse_eq _ (normalize_canonical s.a))⟩

/-- Settles O15: dropping the sign bit is the word of the absolute value. -/
theorem absRule : Obligations.AbsRule :=
  ⟨rfl, fun s => exec_of_form_s .abs rfl s _ (absResponse_eq _)⟩

/-- Settles O9: NORM reads the raw port, so both settings give `normalize` of the word. -/
theorem normRule : Obligations.NormRule :=
  ⟨rfl, fun s => exec_of_no_signed_port .norm (.inr (.inl rfl)) s _ (normResponse_eq s.a)⟩

/-- Settles O10: ZERO reads no port, and `val` is 0 on one canonical word alone. -/
theorem zeroRule : Obligations.ZeroRule :=
  ⟨rfl, fun s => exec_of_no_signed_port .zero (.inl rfl) s _ rfl, val_eq_zero_iff⟩

end Sys2Proof.Machine
end

section
/-! PROOFS. The statements of spec/41_conversion.md. First that `wordOfInt` gives back a canonical word from its value, and what
a range check before `compose` does; then each command's response; then the statements, which read the response off `exec`. -/

namespace Sys2Proof.Machine

/-! ### Words from integers -/

/-- `wordOfInt` is a left inverse of `val` on the canonical words (R15); `val_wordOfInt` is the other direction. -/
theorem wordOfInt_val (w : Word) (h : Canonical w) : wordOfInt (val w) = w := by
  rcases canonical_cases w h with ⟨-, -, -, hval⟩ | ⟨-, hmag, hpos, -, hval⟩
  · rw [hval, wordOfInt_natCast, BitVec.ofNat_toNat, BitVec.setWidth_eq]
  · have hneg : ¬ 0 ≤ -(mag w : Int) := by omega
    rw [hval, wordOfInt, if_neg hneg, Int.natAbs_neg, Int.natAbs_natCast, Nat.add_comm, hmag, BitVec.ofNat_toNat,
      BitVec.setWidth_eq]

/-- The range check of R115 before `compose`: the canonical word of the signed magnitude where it fits, else the kind. -/
theorem raise_or_compose_eq (k : ErrorKind) (neg : Bool) (m : Nat) :
    (if !fitsMag m then raiseKind k else returnWord (compose neg m)) =
      if m ≤ maxMag then .ok (wordOfInt (signedInt neg m)) else .err k := by
  by_cases h : m ≤ maxMag
  · rw [(fitsMag_iff m).2 h, if_pos h, compose_eq_wordOfInt neg m h]
    rfl
  · rw [Bool.eq_false_iff.2 (mt (fitsMag_iff m).1 h), if_neg h]
    rfl

/-! ### The responses of the family -/

/-- FROMU's word is that of the scalar as an integer, which is the scalar's own pattern (R90). -/
theorem fromuResponse_toNat (w : Word) :
    fromuResponse w.toNat = if w.toNat ≤ maxMag then .ok w else .err .conversionOverflow := by
  have hword : wordOfInt (signedInt false w.toNat) = w := by
    rw [signedInt, if_neg Bool.false_ne_true, wordOfInt_natCast, BitVec.ofNat_toNat, BitVec.setWidth_eq]
  rw [fromuResponse, raise_or_compose_eq, hword]

theorem negfromuResponse_eq (u : Nat) :
    negfromuResponse u = if u ≤ maxMag then .ok (wordOfInt (-(u : Int))) else .err .conversionOverflow :=
  raise_or_compose_eq .conversionOverflow true u

/-- TOU tests the sign of the value and returns the word of that value (R92). -/
theorem touResponse_eq (w : Word) (h : Canonical w) :
    touResponse w = if val w < 0 then .err .conversionUnderflow else .ok (wordOfInt (val w)) := by
  rw [touResponse, isNeg_eq_val_neg w h, wordOfInt_val w h]
  simp only [decide_eq_true_eq, raiseKind, returnWord]

/-! ### `exec` of a command whose scalar is checked against MAX -/

/-- A command of form `u` always completes (R52): with one response up to MAX, and with the other above it. -/
theorem exec_of_form_u_split (i : Instr) (hform : i.form = .u) (s : State) (r e : Response)
    (hr : responseOf i s.a s.b = if s.a.toNat ≤ maxMag then r else e) :
    (s.a.toNat ≤ maxMag → exec i s = .next (respond r s)) ∧
    (maxMag < s.a.toNat → exec i s = .next (respond e s)) := by
  have hexec := exec_of_no_signed_port i (.inr (.inr hform)) s _ hr
  constructor
  · intro hfits
    rwa [if_pos hfits] at hexec
  · intro habove
    rwa [if_neg (Nat.not_le.2 habove)] at hexec

/-! ### The statements -/

/-- Settles O18: the response of FROMU is split at MAX, and its word is the scalar's own. -/
theorem fromuRule : Obligations.FromuRule :=
  ⟨rfl, fun s => exec_of_form_u_split .fromu rfl s _ _ (fromuResponse_toNat s.a)⟩

/-- Settles O19: the response of NEGFROMU is split at MAX, as that of FROMU is. -/
theorem negfromuRule : Obligations.NegfromuRule :=
  ⟨rfl, fun s => exec_of_form_u_split .negfromu rfl s _ _ (negfromuResponse_eq s.a.toNat)⟩

/-- Settles O20: the input stage hands TOU a canonical word, and its response is split at 0. -/
theorem touRule : Obligations.TouRule := by
  refine ⟨rfl, fun s => ?_⟩
  obtain ⟨hok, hrefuse⟩ := exec_of_form_s .tou rfl s _ (touResponse_eq _ (normalize_canonical s.a))
  refine ⟨fun hs hnonneg => ?_, fun hs hneg => ?_, hrefuse⟩
  · have hexec := hok hs
    rwa [if_neg (Int.not_lt.2 hnonneg)] at hexec
  · have hexec := hok hs
    rwa [if_pos hneg] at hexec

end Sys2Proof.Machine
end

section
/-! PROOFS. The statements of spec/42_comparison.md. First that `cmpWords` orders two canonical words as their values (R101);
then each command's response in terms of those values; then the statements, which read the response off `exec`. -/

namespace Sys2Proof.Machine

/-! ### The order of two words -/

/-- Canonical words are equal exactly when their values are: `wordOfInt` recovers the word from its value (R15). -/
theorem val_inj (a b : Word) (ha : Canonical a) (hb : Canonical b) : val a = val b ↔ a = b := by
  refine ⟨fun h => ?_, congrArg val⟩
  rw [← wordOfInt_val a ha, h, wordOfInt_val b hb]

/-- `cmp` orders the values of two canonical words (R101): each sign case compares the magnitudes in the direction in which
they order the values. -/
theorem cmpWords_eq (a b : Word) (ha : Canonical a) (hb : Canonical b) :
    cmpWords a b = if val a = val b then .equal else if val a < val b then .less else .greater := by
  unfold cmpWords
  by_cases hab : a = b
  · rw [if_pos hab, if_pos ((val_inj a b ha hb).2 hab)]
  · have hne : val a ≠ val b := mt (val_inj a b ha hb).1 hab
    rw [if_neg hab, if_neg hne]
    rcases canonical_cases a ha with ⟨hna, hma, -, hva⟩ | ⟨hna, -, hpa, -, hva⟩ <;>
      rcases canonical_cases b hb with ⟨hnb, hmb, -, hvb⟩ | ⟨hnb, -, hpb, -, hvb⟩ <;>
      simp only [hna, hnb, Bool.not_true, Bool.not_false, Bool.and_true, Bool.and_false, Bool.false_eq_true, if_true,
        if_false]
    case inl.inl =>
      by_cases hlt : val a < val b
      · rw [if_pos hlt, if_neg (by omega)]
      · rw [if_neg hlt, if_pos (by omega)]
    case inl.inr => rw [if_neg (by omega)]
    case inr.inl => rw [if_pos (by omega)]
    case inr.inr =>
      by_cases hlt : val a < val b
      · rw [if_pos hlt, if_pos (by omega)]
      · rw [if_neg hlt, if_neg (by omega)]

theorem cmpWords_eq_less_iff (a b : Word) (ha : Canonical a) (hb : Canonical b) :
    cmpWords a b = .less ↔ val a < val b := by
  rw [cmpWords_eq a b ha hb]
  split_ifs <;> simp <;> omega

theorem cmpWords_eq_greater_iff (a b : Word) (ha : Canonical a) (hb : Canonical b) :
    cmpWords a b = .greater ↔ val b < val a := by
  rw [cmpWords_eq a b ha hb]
  split_ifs <;> simp <;> omega

/-! ### The responses of the family, by the values of the operands -/

/-- CMP's word is the code of the order of the values (R100, R102). -/
theorem cmpResponse_eq (a b : Word) (ha : Canonical a) (hb : Canonical b) :
    cmpResponse a b = .ok (if val a = val b then 0#64 else if val a < val b then 1#64 else 2#64) := by
  rw [cmpResponse, returnWord, cmpWords_eq a b ha hb, apply_ite orderingCode, apply_ite orderingCode]
  rfl

theorem eqResponse_eq (a b : Word) (ha : Canonical a) (hb : Canonical b) :
    eqResponse a b = .ok (if val a = val b then 1#64 else 0#64) := by
  simp only [eqResponse, returnWord, boolWord_decide, val_inj a b ha hb]

theorem ltResponse_eq (a b : Word) (ha : Canonical a) (hb : Canonical b) :
    ltResponse a b = .ok (if val a < val b then 1#64 else 0#64) := by
  simp only [ltResponse, returnWord, boolWord_decide, cmpWords_eq_less_iff a b ha hb]

theorem gtResponse_eq (a b : Word) (ha : Canonical a) (hb : Canonical b) :
    gtResponse a b = .ok (if val b < val a then 1#64 else 0#64) := by
  simp only [gtResponse, returnWord, boolWord_decide, cmpWords_eq_greater_iff a b ha hb]

theorem lteResponse_eq (a b : Word) (ha : Canonical a) (hb : Canonical b) :
    lteResponse a b = .ok (if val a ≤ val b then 1#64 else 0#64) := by
  simp only [lteResponse, returnWord, boolWord_decide, ne_eq, cmpWords_eq_greater_iff a b ha hb, Int.not_lt]

theorem gteResponse_eq (a b : Word) (ha : Canonical a) (hb : Canonical b) :
    gteResponse a b = .ok (if val b ≤ val a then 1#64 else 0#64) := by
  simp only [gteResponse, returnWord, boolWord_decide, ne_eq, cmpWords_eq_less_iff a b ha hb, Int.not_lt]

/-! ### `exec` of a command with both ports signed -/

/-- A command of form `s,s` completes with its response on two accepted words and is refused on any others (R52, R74). -/
theorem exec_of_form_ss (i : Instr) (hform : i.form = .ss) (s : State) (r : Response)
    (hr : responseOf i s.a s.b = r) :
    (SignedOk s.params s.a → SignedOk s.params s.b → exec i s = .next (respond r s)) ∧
    (¬ (SignedOk s.params s.a ∧ SignedOk s.params s.b) → exec i s = .refused .noncanonicalOperand) := by
  subst hr
  rw [← and_imp, ← operandsOk_pair_iff s.params i s.a s.b hform]
  exact ⟨exec_of_operandsOk i s, exec_of_not_operandsOk i s⟩

/-! ### The statements -/

/-- Settles O23: the input stage hands CMP two canonical words, which it orders as their values. -/
theorem cmpRule : Obligations.CmpRule :=
  ⟨rfl, fun s => exec_of_form_ss .cmp rfl s _ (cmpResponse_eq _ _ (normalize_canonical s.a) (normalize_canonical s.b))⟩

/-- Settles O24: EQ compares the words after the input stage, and `val` is injective on them. -/
theorem eqRule : Obligations.EqRule := by
  refine ⟨rfl, fun s => ?_⟩
  have ha := normalize_canonical s.a
  have hb := normalize_canonical s.b
  obtain ⟨hok, hrefuse⟩ := exec_of_form_ss .eq rfl s _ (eqResponse_eq _ _ ha hb)
  exact ⟨fun hsa hsb => ⟨hok hsa hsb, (val_inj _ _ ha hb).symm⟩, hrefuse⟩

/-- Settles O25: each predicate asks `cmp` for one order of the values, or for its absence. -/
theorem orderPredicatesRule : Obligations.OrderPredicatesRule := by
  refine ⟨⟨rfl, rfl, rfl, rfl⟩, fun s => ?_⟩
  have ha := normalize_canonical s.a
  have hb := normalize_canonical s.b
  obtain ⟨hlt, hltRefuse⟩ := exec_of_form_ss .lt rfl s _ (ltResponse_eq _ _ ha hb)
  obtain ⟨hgt, hgtRefuse⟩ := exec_of_form_ss .gt rfl s _ (gtResponse_eq _ _ ha hb)
  obtain ⟨hlte, hlteRefuse⟩ := exec_of_form_ss .lte rfl s _ (lteResponse_eq _ _ ha hb)
  obtain ⟨hgte, hgteRefuse⟩ := exec_of_form_ss .gte rfl s _ (gteResponse_eq _ _ ha hb)
  exact ⟨fun hsa hsb => ⟨hlt hsa hsb, hgt hsa hsb, hlte hsa hsb, hgte hsa hsb⟩,
    fun h => ⟨hltRefuse h, hgtRefuse h, hlteRefuse h, hgteRefuse h⟩⟩

end Sys2Proof.Machine
end

section
/-! PROOFS. The statements of spec/43_overflow_detector.md. First that every predicate asks whether one exact magnitude fits
(R115 to R117); then each command's response as one range check of its exact result (R120, R121); then the table of the kinds. -/

namespace Sys2Proof.Machine

/-! ### The predicates -/

theorem addFits_iff (m s : Nat) : addFits m s = true ↔ (m : Int) ≤ (maxMag : Int) - (s : Int) := by
  rw [addFits, decide_eq_true_iff]

/-- The check on the operands is the check on their sum (R116). -/
theorem addFits_eq_fitsMag (m s : Nat) : addFits m s = fitsMag (m + s) := by
  rw [Bool.eq_iff_iff, addFits_iff, fitsMag_iff]
  omega

/-- The check by floor division is the check on the product (R117). -/
theorem mulFits_eq_fitsMag (m s : Nat) : mulFits m s = fitsMag (m * s) := by
  rw [Bool.eq_iff_iff, fitsMag_iff, mulFits, decide_eq_true_iff]
  rcases Nat.eq_zero_or_pos m with rfl | hpos
  · simp
  · rw [Nat.le_div_iff_mul_le hpos, Nat.mul_comm s m]
    exact or_iff_right hpos.ne'

/-! ### Signed integers and the valid range -/

theorem signedInt_false (m : Nat) : signedInt false m = (m : Int) := rfl

theorem signedInt_true (m : Nat) : signedInt true m = -(m : Int) := rfl

theorem inRange_signedInt_iff (neg : Bool) (m : Nat) : InRange (signedInt neg m) ↔ m ≤ maxMag := by
  cases neg
  case false => simp only [InRange, signedInt_false]; omega
  case true => simp only [InRange, signedInt_true]; omega

theorem val_eq_signedInt (w : Word) : val w = signedInt (isNeg w) (mag w) := rfl

theorem val_inRange (w : Word) (h : Canonical w) : InRange (val w) := by
  rw [val_eq_signedInt, inRange_signedInt_iff]
  exact mag_le_max w h

theorem signedInt_not (neg : Bool) (m : Nat) : signedInt (!neg) m = -signedInt neg m := by
  cases neg <;> simp [signedInt]

/-- The sign rule of multiplication (R133, R153). -/
theorem signedInt_xor_mul (n₁ n₂ : Bool) (m₁ m₂ : Nat) :
    signedInt (n₁ ^^ n₂) (m₁ * m₂) = signedInt n₁ m₁ * signedInt n₂ m₂ := by
  cases n₁ <;> cases n₂ <;> simp [signedInt]

/-! ### One range check -/

/-- A range check of an exact result: the result's word where it is in range, else the kind (R121). The `…Response_checked`
lemmas below tie it to the model. -/
def rangeChecked (k : ErrorKind) (n : Int) : Response :=
  if InRange n then .ok (wordOfInt n) else .err k

theorem rangeChecked_inRange (k : ErrorKind) (n : Int) (h : InRange n) : rangeChecked k n = .ok (wordOfInt n) := if_pos h

theorem rangeChecked_above (k : ErrorKind) (n : Int) (h : (maxMag : Int) < n) : rangeChecked k n = .err k :=
  if_neg fun hin => Int.not_lt.2 hin.2 h

theorem rangeChecked_below (k : ErrorKind) (n : Int) (h : n < -(maxMag : Int)) : rangeChecked k n = .err k :=
  if_neg fun hin => Int.not_lt.2 hin.1 h

/-- The check of a magnitude before it is composed is the range check of the signed integer (R120). -/
theorem raise_or_compose_checked (k : ErrorKind) (neg : Bool) (m : Nat) :
    (if !fitsMag m then raiseKind k else returnWord (compose neg m)) = rangeChecked k (signedInt neg m) := by
  rw [raise_or_compose_eq, rangeChecked]
  simp only [inRange_signedInt_iff]

theorem compose_checked (k : ErrorKind) (neg : Bool) (m : Nat) (h : m ≤ maxMag) :
    returnWord (compose neg m) = rangeChecked k (signedInt neg m) := by
  rw [rangeChecked_inRange k _ ((inRange_signedInt_iff neg m).2 h), returnWord, compose_eq_wordOfInt neg m h]

/-! ### The responses of the commands with a range check -/

theorem fromuResponse_checked (u : Nat) : fromuResponse u = rangeChecked .conversionOverflow (u : Int) :=
  raise_or_compose_checked .conversionOverflow false u

theorem negfromuResponse_checked (u : Nat) : negfromuResponse u = rangeChecked .conversionOverflow (-(u : Int)) :=
  raise_or_compose_checked .conversionOverflow true u

/-- ADDS (R131): each branch composes the magnitude and the sign of A + B. -/
theorem addsResponse_checked (a : Word) (s : Nat) (h : Canonical a) :
    addsResponse a s = rangeChecked .addOverflow (val a + (s : Int)) := by
  have hmag := mag_le_max a h
  rw [addsResponse, addFits_eq_fitsMag, val_eq_signedInt]
  cases isNeg a
  case false =>
    have hsum : signedInt false (mag a + s) = signedInt false (mag a) + (s : Int) := Int.natCast_add _ _
    rw [if_pos Bool.not_false, raise_or_compose_checked, hsum]
  case true =>
    rw [if_neg (by decide), signedInt_true]
    by_cases hle : mag a ≤ s
    · have hsum : signedInt false (s - mag a) = -(mag a : Int) + (s : Int) := by rw [signedInt_false]; omega
      rw [if_pos hle, raise_or_compose_checked, hsum]
    · have hsum : signedInt true (mag a - s) = -(mag a : Int) + (s : Int) := by rw [signedInt_true]; omega
      rw [if_neg hle, compose_checked .addOverflow true _ (by omega), hsum]

/-- SUBS (R132): each branch composes the magnitude and the sign of A - B. -/
theorem subsResponse_checked (a : Word) (s : Nat) (h : Canonical a) :
    subsResponse a s = rangeChecked .subUnderflow (val a - (s : Int)) := by
  have hmag := mag_le_max a h
  rw [subsResponse, addFits_eq_fitsMag, val_eq_signedInt]
  cases isNeg a
  case true =>
    have hdiff : signedInt true (mag a + s) = signedInt true (mag a) - (s : Int) := by
      rw [signedInt_true, signedInt_true]
      omega
    rw [if_pos rfl, raise_or_compose_checked, hdiff]
  case false =>
    rw [if_neg Bool.false_ne_true, signedInt_false]
    by_cases hle : s ≤ mag a
    · have hdiff : signedInt false (mag a - s) = (mag a : Int) - (s : Int) := Int.natCast_sub hle
      rw [if_pos hle, compose_checked .subUnderflow false _ (by omega), hdiff]
    · have hdiff : signedInt true (s - mag a) = (mag a : Int) - (s : Int) := by rw [signedInt_true]; omega
      rw [if_neg hle, raise_or_compose_checked, hdiff]

theorem mulsResponse_checked (a : Word) (s : Nat) :
    mulsResponse a s = rangeChecked .mulOverflow (val a * (s : Int)) := by
  have hprod : signedInt (isNeg a) (mag a * s) = val a * (s : Int) := by
    have hxor := signedInt_xor_mul (isNeg a) false (mag a) s
    rwa [Bool.xor_false] at hxor
  rw [mulsResponse, mulFits_eq_fitsMag, raise_or_compose_checked, hprod]

theorem mulpResponse_checked (a b : Word) : mulpResponse a b = rangeChecked .mulOverflow (val a * val b) := by
  rw [mulpResponse, mulFits_eq_fitsMag, raise_or_compose_checked, signedInt_xor_mul]
  rfl

/-- The kind that ADDP and SUBP raise for an exact result, by its direction (R119). -/
def sumKind (n : Int) : ErrorKind := if 0 < n then .addOverflow else .subUnderflow

theorem sumKind_above (n : Int) (h : (maxMag : Int) < n) : sumKind n = .addOverflow := if_pos (by omega)

theorem sumKind_below (n : Int) (h : n < -(maxMag : Int)) : sumKind n = .subUnderflow := if_neg (by omega)

/-- The case split that ADDP and SUBP share is one range check of the signed sum. -/
theorem combineSigned_checked (na nb : Bool) (ma mb : Nat) (ha : ma ≤ maxMag) (hb : mb ≤ maxMag) :
    combineSigned na ma nb mb =
      rangeChecked (sumKind (signedInt na ma + signedInt nb mb)) (signedInt na ma + signedInt nb mb) := by
  rw [combineSigned_eq na nb ma mb ha hb, ← apply_ite Response.err]
  rfl

theorem addpResponse_checked (a b : Word) (ha : Canonical a) (hb : Canonical b) :
    addpResponse a b = rangeChecked (sumKind (val a + val b)) (val a + val b) :=
  combineSigned_checked _ _ _ _ (mag_le_max a ha) (mag_le_max b hb)

theorem subpResponse_checked (a b : Word) (ha : Canonical a) (hb : Canonical b) :
    subpResponse a b = rangeChecked (sumKind (val a - val b)) (val a - val b) := by
  rw [subpResponse, combineSigned_checked _ _ _ _ (mag_le_max a ha) (mag_le_max b hb), signedInt_not]
  rfl

/-! ### The table of the kinds -/

/-- ADDS never falls below -MAX: its scalar is not negative (R119). -/
theorem exactResult_adds_not_below (a b : Word) : ¬ exactResult .adds a b < -(maxMag : Int) := by
  obtain ⟨hlo, -⟩ := val_inRange _ (normalize_canonical a)
  rw [exactResult]
  omega

/-- SUBS never rises above MAX: its scalar is not negative (R119). -/
theorem exactResult_subs_not_above (a b : Word) : ¬ (maxMag : Int) < exactResult .subs a b := by
  obtain ⟨-, hhi⟩ := val_inRange _ (normalize_canonical a)
  rw [exactResult]
  omega

/-- Every row of R119's table is one range check of the exact result, with the table's kind in each direction that the result
can take. -/
theorem responseOf_rangeInstr (op : RangeOp) (a b : Word) :
    ∃ k, responseOf (rangeInstr op) a b = rangeChecked k (exactResult op a b) ∧
      ((maxMag : Int) < exactResult op a b → rangeKind op .pos = some k) ∧
      (exactResult op a b < -(maxMag : Int) → rangeKind op .neg = some k) := by
  have ha := normalize_canonical a
  have hb := normalize_canonical b
  cases op with
  | adds => exact ⟨_, addsResponse_checked _ _ ha, fun _ => rfl, fun h => absurd h (exactResult_adds_not_below a b)⟩
  | subs => exact ⟨_, subsResponse_checked _ _ ha, fun h => absurd h (exactResult_subs_not_above a b), fun _ => rfl⟩
  | addp =>
    exact ⟨_, addpResponse_checked _ _ ha hb, fun h => congrArg some (sumKind_above _ h).symm,
      fun h => congrArg some (sumKind_below _ h).symm⟩
  | subp =>
    exact ⟨_, subpResponse_checked _ _ ha hb, fun h => congrArg some (sumKind_above _ h).symm,
      fun h => congrArg some (sumKind_below _ h).symm⟩
  | muls => exact ⟨_, mulsResponse_checked _ _, fun _ => rfl, fun _ => rfl⟩
  | mulp => exact ⟨_, mulpResponse_checked _ _, fun _ => rfl, fun _ => rfl⟩
  | fromu => exact ⟨_, fromuResponse_checked _, fun _ => rfl, fun _ => rfl⟩
  | negfromu => exact ⟨_, negfromuResponse_checked _, fun _ => rfl, fun _ => rfl⟩

/-! ### The statements -/

/-- Settles O6: `addFits` is the check on the exact sum, and a scalar above MAX leaves no room for any magnitude. -/
theorem addFitsExact : Obligations.AddFitsExact := by
  intro m s
  have hsum : addFits m s = true ↔ m + s ≤ maxMag := by rw [addFits_eq_fitsMag, fitsMag_iff]
  refine ⟨addFits_iff m s, hsum, fun habove => ?_⟩
  rw [Bool.eq_false_iff, Ne, hsum]
  omega

/-- Settles O8: the command's response is one range check of the exact result, with the table's kind. -/
theorem rangeKindTable : Obligations.RangeKindTable := by
  intro op s hok
  obtain ⟨k, hresponse, hpos, hneg⟩ := responseOf_rangeInstr op s.a s.b
  have hexec := exec_of_operandsOk (rangeInstr op) s hok
  rw [hresponse] at hexec
  refine ⟨fun hin => ?_, fun habove => ⟨k, hpos habove, ?_⟩, fun hbelow => ⟨k, hneg hbelow, ?_⟩⟩
  · rwa [rangeChecked_inRange k _ hin] at hexec
  · rwa [rangeChecked_above k _ habove] at hexec
  · rwa [rangeChecked_below k _ hbelow] at hexec

end Sys2Proof.Machine
end

section
/-! PROOFS. The statements of spec/44_scalar_arith.md. First the sign rule of truncated division and DIVS's response; then what
`exec` answers to a command of form `s,u`; then the statements, of which the first three are range checks of the exact result. -/

namespace Sys2Proof.Machine

/-! ### Division -/

/-- The sign rule of division: the floor of the magnitudes with the sign attached is the truncated quotient (R134, R154). -/
theorem signedInt_xor_tdiv (n₁ n₂ : Bool) (m₁ m₂ : Nat) :
    signedInt (n₁ ^^ n₂) (m₁ / m₂) = Int.tdiv (signedInt n₁ m₁) (signedInt n₂ m₂) := by
  cases n₁ <;> cases n₂ <;> simp [signedInt, Int.neg_tdiv, Int.tdiv_neg]

/-- DIVS divides the magnitudes, which never leaves the valid range (R121), unless its scalar is 0 (R134). -/
theorem divsResponse_eq (a : Word) (s : Nat) (h : Canonical a) :
    divsResponse a s = if s = 0 then .err .divideByZero else .ok (wordOfInt (Int.tdiv (val a) (s : Int))) := by
  unfold divsResponse
  by_cases hzero : s = 0
  · rw [if_pos hzero, hzero]
    rfl
  · have hquot : signedInt (isNeg a) (mag a / s) = Int.tdiv (val a) (s : Int) := by
      have hxor := signedInt_xor_tdiv (isNeg a) false (mag a) s
      rwa [Bool.xor_false] at hxor
    rw [if_neg hzero, (nonZero_iff s).2 hzero,
      compose_eq_wordOfInt _ _ ((Nat.div_le_self _ _).trans (mag_le_max a h)), ← hquot]
    rfl

/-! ### `exec` of a command with port A signed and a scalar on port B -/

/-- A command of form `s,u` completes with its response on an accepted word and is refused on any other (R52, R74). -/
theorem exec_of_form_su (i : Instr) (hform : i.form = .su) (s : State) (r : Response)
    (hr : responseOf i s.a s.b = r) :
    (SignedOk s.params s.a → exec i s = .next (respond r s)) ∧
    (¬ SignedOk s.params s.a → exec i s = .refused .noncanonicalOperand) := by
  subst hr
  rw [← operandsOk_signed_a_iff s.params i s.a s.b (.inr hform)]
  exact ⟨exec_of_operandsOk i s, exec_of_not_operandsOk i s⟩

/-- A command of form `s,u` with a range check completes with the word of its exact result, or with its one kind (R121). -/
theorem exec_of_form_su_checked (i : Instr) (hform : i.form = .su) (s : State) (k : ErrorKind) (n : Int)
    (hr : responseOf i s.a s.b = rangeChecked k n) :
    (SignedOk s.params s.a → InRange n → exec i s = .next (respond (.ok (wordOfInt n)) s)) ∧
    (SignedOk s.params s.a → ¬ InRange n → exec i s = .next (respond (.err k) s)) ∧
    (¬ SignedOk s.params s.a → exec i s = .refused .noncanonicalOperand) := by
  obtain ⟨hok, hrefuse⟩ := exec_of_form_su i hform s _ hr
  refine ⟨fun hs hin => ?_, fun hs hout => ?_, hrefuse⟩
  · rw [hok hs, rangeChecked_inRange k n hin]
  · rw [hok hs, rangeChecked, if_neg hout]

/-! ### The statements -/

/-- Settles O27: the exact sum is never below -MAX, so the range check is the check against MAX. -/
theorem addsRule : Obligations.AddsRule := by
  refine ⟨rfl, fun s => ?_⟩
  obtain ⟨hreturn, hraise, hrefuse⟩ :=
    exec_of_form_su_checked .adds rfl s _ _ (addsResponse_checked _ _ (normalize_canonical s.a))
  refine ⟨fun hs hle => hreturn hs ⟨?_, hle⟩, fun hs habove => hraise hs fun hin => ?_, hrefuse⟩
  · exact Int.not_lt.1 (exactResult_adds_not_below s.a s.b)
  · exact Int.not_lt.2 hin.2 habove

/-- Settles O28: the exact difference is never above MAX, so the range check is the check against -MAX. -/
theorem subsRule : Obligations.SubsRule := by
  refine ⟨rfl, fun s => ?_⟩
  obtain ⟨hreturn, hraise, hrefuse⟩ :=
    exec_of_form_su_checked .subs rfl s _ _ (subsResponse_checked _ _ (normalize_canonical s.a))
  refine ⟨fun hs hge => hreturn hs ⟨hge, ?_⟩, fun hs hbelow => hraise hs fun hin => ?_, hrefuse⟩
  · exact Int.not_lt.1 (exactResult_subs_not_above s.a s.b)
  · exact Int.not_lt.2 hin.1 hbelow

/-- Settles O29: the check by floor division before the product is the range check of the exact product. -/
theorem mulsRule : Obligations.MulsRule :=
  ⟨rfl, fun s => exec_of_form_su_checked .muls rfl s _ _ (mulsResponse_checked _ _)⟩

/-- Settles O30: the response of DIVS is split at the scalar 0, which is the word 0 alone. -/
theorem divsRule : Obligations.DivsRule := by
  refine ⟨rfl, fun s => ?_⟩
  obtain ⟨hok, hrefuse⟩ := exec_of_form_su .divs rfl s _ (divsResponse_eq _ _ (normalize_canonical s.a))
  have hzero : s.b.toNat = 0 ↔ s.b = 0#64 := BitVec.toNat_inj (y := 0#64)
  refine ⟨fun hs hb => ?_, fun hs hb => ?_, hrefuse⟩
  · have hexec := hok hs
    rwa [if_neg (mt hzero.1 hb)] at hexec
  · have hexec := hok hs
    rwa [if_pos (hzero.2 hb)] at hexec

end Sys2Proof.Machine
end

section
/-! PROOFS. The statements of spec/45_pair_arith.md. First DIVP's response; then what `exec` answers to a command of form `s,s`
with a range check; then the statements, of which the first three are range checks of the exact result. -/

namespace Sys2Proof.Machine

/-! ### Division -/

/-- The test of the divisor's magnitude is the test of its value (R118). -/
theorem nonZero_mag_iff (w : Word) : nonZero (mag w) = true ↔ val w ≠ 0 := by
  rw [nonZero_iff, mag_eq_natAbs, Int.natAbs_ne_zero]

/-- DIVP divides the magnitudes, which never leaves the valid range (R121), unless its divisor's value is 0 (R154). -/
theorem divpResponse_eq (a b : Word) (h : Canonical a) :
    divpResponse a b = if val b = 0 then .err .divideByZero else .ok (wordOfInt (Int.tdiv (val a) (val b))) := by
  unfold divpResponse
  by_cases hzero : val b = 0
  · have hnonZero : nonZero (mag b) = false := Bool.eq_false_iff.2 fun hb => (nonZero_mag_iff b).1 hb hzero
    rw [if_pos hzero, hnonZero]
    rfl
  · have hquot : signedInt (isNeg a ^^ isNeg b) (mag a / mag b) = Int.tdiv (val a) (val b) := signedInt_xor_tdiv _ _ _ _
    rw [if_neg hzero, (nonZero_mag_iff b).2 hzero,
      compose_eq_wordOfInt _ _ ((Nat.div_le_self _ _).trans (mag_le_max a h)), ← hquot]
    rfl

/-! ### `exec` of a command with both ports signed and a range check -/

/-- A command of form `s,s` with a range check completes with the word of its exact result, or with its kind (R121). -/
theorem exec_of_form_ss_checked (i : Instr) (hform : i.form = .ss) (s : State) (k : ErrorKind) (n : Int)
    (hr : responseOf i s.a s.b = rangeChecked k n) :
    (SignedOk s.params s.a → SignedOk s.params s.b → InRange n → exec i s = .next (respond (.ok (wordOfInt n)) s)) ∧
    (SignedOk s.params s.a → SignedOk s.params s.b → ¬ InRange n → exec i s = .next (respond (.err k) s)) ∧
    (¬ (SignedOk s.params s.a ∧ SignedOk s.params s.b) → exec i s = .refused .noncanonicalOperand) := by
  obtain ⟨hok, hrefuse⟩ := exec_of_form_ss i hform s _ hr
  refine ⟨fun ha hb hin => ?_, fun ha hb hout => ?_, hrefuse⟩
  · rw [hok ha hb, rangeChecked_inRange k n hin]
  · rw [hok ha hb, rangeChecked, if_neg hout]

/-- A command of form `s,s` that checks a signed sum raises the kind of the direction in which the sum leaves the valid
range (R119): what ADDP and SUBP share. -/
theorem exec_of_form_ss_sum (i : Instr) (hform : i.form = .ss) (s : State) (n : Int)
    (hr : responseOf i s.a s.b = rangeChecked (sumKind n) n) :
    (SignedOk s.params s.a → SignedOk s.params s.b → InRange n → exec i s = .next (respond (.ok (wordOfInt n)) s)) ∧
    (SignedOk s.params s.a → SignedOk s.params s.b → (maxMag : Int) < n →
      exec i s = .next (respond (.err .addOverflow) s)) ∧
    (SignedOk s.params s.a → SignedOk s.params s.b → n < -(maxMag : Int) →
      exec i s = .next (respond (.err .subUnderflow) s)) ∧
    (¬ (SignedOk s.params s.a ∧ SignedOk s.params s.b) → exec i s = .refused .noncanonicalOperand) := by
  obtain ⟨hreturn, hraise, hrefuse⟩ := exec_of_form_ss_checked i hform s _ _ hr
  refine ⟨hreturn, fun ha hb habove => ?_, fun ha hb hbelow => ?_, hrefuse⟩
  · rw [hraise ha hb fun hin => Int.not_lt.2 hin.2 habove, sumKind_above n habove]
  · rw [hraise ha hb fun hin => Int.not_lt.2 hin.1 hbelow, sumKind_below n hbelow]

/-! ### The statements -/

/-- Settles O31: the response of ADDP is one range check of the sum, with the kind of its direction. -/
theorem addpRule : Obligations.AddpRule :=
  ⟨rfl, fun s => exec_of_form_ss_sum .addp rfl s _
    (addpResponse_checked _ _ (normalize_canonical s.a) (normalize_canonical s.b))⟩

/-- Settles O32: the response of SUBP is one range check of the difference, with the kind of its direction. -/
theorem subpRule : Obligations.SubpRule :=
  ⟨rfl, fun s => exec_of_form_ss_sum .subp rfl s _
    (subpResponse_checked _ _ (normalize_canonical s.a) (normalize_canonical s.b))⟩

/-- Settles O33: the check by floor division before the product is the range check of the exact product. -/
theorem mulpRule : Obligations.MulpRule :=
  ⟨rfl, fun s => exec_of_form_ss_checked .mulp rfl s _ _ (mulpResponse_checked _ _)⟩

/-- Settles O34: the response of DIVP is split at a divisor of value 0, to which the input stage also brings negative zero. -/
theorem divpRule : Obligations.DivpRule := by
  refine ⟨rfl, fun s => ?_⟩
  obtain ⟨hok, hrefuse⟩ := exec_of_form_ss .divp rfl s _ (divpResponse_eq _ _ (normalize_canonical s.a))
  refine ⟨fun ha hb hne => ?_, fun ha hb hzero => ?_, hrefuse⟩
  · rw [hok ha hb, if_neg hne]
    rfl
  · rw [hok ha hb, if_pos hzero]
    rfl

end Sys2Proof.Machine
end

section
/-! PROOFS. The statements of spec/60_exceptions.md. First what STATUS and RESULT show of a response; then that the decoder
accepts only the words of well-formed commands, so that the ranges of R56 hold illegal values alone; then the statements. -/

namespace Sys2Proof.Machine

/-! ### STATUS and RESULT of a response -/

theorem statusPort_of_response (t : State) (r : Response) (h : t.response = some r) :
    statusPort t = some (statusOf r) := by
  simp [statusPort, h]

theorem resultPort_of_response (t : State) (r : Response) (h : t.response = some r) :
    resultPort t = some (resultOf r) := by
  simp [resultPort, h]

/-! ### The decoder accepts only the encodings of well-formed commands -/

theorem famField_append_fnField (w : CmdWord) : famField w ++ fnField w = w :=
  (BitVec.extractLsb'_append_extractLsb'_eq_extractLsb' (by rfl)).trans BitVec.extractLsb'_eq_self

theorem famCode_of_decodeFamily (fam : Nibble) (f : Family) (h : decodeFamily fam = some f) : fam = famCode f := by
  unfold decodeFamily at h
  split at h <;> cases h <;> exact BitVec.eq_of_toNat_eq ‹_›

/-- A function value selects within a family only that family's own commands, each by its FN value (R55). -/
theorem fnCode_of_decodeFunction (f : Family) (fn : Nibble) (i : Instr) (h : decodeFunction f fn = some i) :
    i.family = f ∧ fn = fnCode i := by
  cases f <;>
    simp only [decodeFunction, decodeNormalization, decodeConversion, decodeComparison, decodeScalar, decodePair] at h <;>
    split at h <;> cases h <;> exact ⟨rfl, BitVec.eq_of_toNat_eq ‹_›⟩

/-- The inversion of `decode`: a word that selects a command is its encoding, and the instance has the command (R55, R56). -/
theorem decode_ok_cases (p : Params) (w : CmdWord) (i : Instr) (h : decode p w = .ok i) :
    w = encode i ∧ i.wellFormed p = true := by
  unfold decode at h
  split at h
  · cases h
  next f hfam =>
    split at h
    · cases h
    next j hfn =>
      split at h
      next hwf =>
        cases h
        obtain ⟨rfl, hcode⟩ := fnCode_of_decodeFunction f (fnField w) i hfn
        refine ⟨?_, hwf⟩
        rw [encode, ← famCode_of_decodeFamily _ _ hfam, ← hcode, famField_append_fnField]
      · cases h

/-- Among the words of R55, R56 lists only those of the auxiliary commands, and only for an instance without them. -/
theorem illegalValue_encode_iff (p : Params) (i : Instr) :
    IllegalValue p (encode i) ↔ i.isAux = true ∧ p.includeAux = false := by
  cases i <;> simp [IllegalValue, encode, famCode, fnCode, Instr.family, Instr.isAux, Family.isAux]

theorem not_illegalValue_encode (p : Params) (i : Instr) (h : i.wellFormed p = true) : ¬ IllegalValue p (encode i) := by
  rw [illegalValue_encode_iff]
  rintro ⟨haux, habsent⟩
  simp [Instr.wellFormed, haux, habsent] at h

/-- A CMD value of R56's ranges decodes to no command. -/
theorem decode_illegalValue (p : Params) (w : CmdWord) (h : IllegalValue p w) : ∃ e, decode p w = .error e := by
  cases hd : decode p w with
  | error e => exact ⟨e, rfl⟩
  | ok i =>
    obtain ⟨rfl, hwf⟩ := decode_ok_cases p w i hd
    exact absurd h (not_illegalValue_encode p i hwf)

/-! ### The statements -/

/-- Settles O47: the value does not decode, so the step is that of an illegal command under the instance's policy. -/
theorem illegalCommandRule : Obligations.IllegalCommandRule := by
  intro s c rest hissue hillegal
  obtain ⟨e, hd⟩ := decode_illegalValue s.params c.cmd hillegal
  rw [step_issue_illegal s c rest e hissue hd]
  refine ⟨fun hstatus => ?_, fun hrefuse => ?_⟩
  · rw [illegalCommand_status (driveCommand c rest s) hstatus]
    exact ⟨_, rfl, statusPort_of_response _ (.err .illegalCommand) rfl,
      resultPort_of_response _ (.err .illegalCommand) rfl⟩
  · rw [illegalCommand_refuse (driveCommand c rest s) hrefuse, finish_refused]

/-- Settles O42: the ports show `statusOf` and `resultOf` of the response, whichever command completed. -/
theorem statusAndResultPorts : Obligations.StatusAndResultPorts := by
  refine ⟨fun _ _ t _ => ⟨fun v hok => ?_, fun k herr => ?_⟩, rfl, rfl, rfl, rfl, rfl, rfl, rfl⟩
  · exact ⟨statusPort_of_response t (.ok v) hok, resultPort_of_response t (.ok v) hok⟩
  · exact ⟨statusPort_of_response t (.err k) herr, resultPort_of_response t (.err k) herr⟩

end Sys2Proof.Machine
end

section
/-! PROOFS. The statements of spec/30_encoding.md sections 3 and 4. First that a well-formed command decodes from its encoding, which
completes `decode_ok_cases`; then why a value decodes to no command; then the statements. -/

namespace Sys2Proof.Laws.FamilyNibble

theorem of_instr (i : Instr) : Statement i :=
  Instr.rec norm zero one iszero isneg neg abs fromu negfromu tou cmp eq lt gt lte gte adds subs muls divs addp subp mulp
    divp i

end Sys2Proof.Laws.FamilyNibble

namespace Sys2Proof.Machine

/-! ### The decoder accepts every encoding of a well-formed command -/

theorem decode_encode (p : Params) (i : Instr) (h : i.wellFormed p = true) : decode p (encode i) = .ok i := by
  obtain ⟨hfam, hfn, hfamily, hfunction⟩ := Laws.FamilyNibble.of_instr i
  simp [decode, hfam, hfn, hfamily, hfunction, h]

/-! ### The values that decode to no command -/

theorem toNat_eq_fields (w : CmdWord) : w.toNat = 16 * (famField w).toNat + (fnField w).toNat := by
  simp only [famField, fnField, BitVec.extractLsb'_toNat, Nat.shiftRight_eq_div_pow]
  omega

theorem le_toNat_of_decodeFamily_none (fam : Nibble) (h : decodeFamily fam = none) : 5 ≤ fam.toNat := by
  unfold decodeFamily at h
  split at h <;> cases h
  simp only [imp_false] at *
  omega

/-- The number of commands in each family (R55). -/
def functionCount : Family → Nat
  | .normalization => 7
  | .conversion => 3
  | .comparison => 6
  | .scalar => 4
  | .pair => 4

/-- The commands of a family have the function values from 0 up without a gap (R55). -/
theorem functionCount_le_of_decodeFunction_none (f : Family) (fn : Nibble) (h : decodeFunction f fn = none) :
    functionCount f ≤ fn.toNat := by
  cases f <;>
    simp only [decodeFunction, decodeNormalization, decodeConversion, decodeComparison, decodeScalar, decodePair] at h <;>
    split at h <;> cases h <;> simp only [functionCount, imp_false] at * <;> omega

/-- The inversion of `decode` for a rejected value: R56's three reasons. -/
theorem decode_error_cases (p : Params) (w : CmdWord) (e : IllegalCmd) (h : decode p w = .error e) :
    5 ≤ (famField w).toNat ∨
    (∃ f, famField w = famCode f ∧ functionCount f ≤ (fnField w).toNat) ∨
    (∃ i, w = encode i ∧ i.wellFormed p = false) := by
  unfold decode at h
  split at h
  next hfam => exact .inl (le_toNat_of_decodeFamily_none _ hfam)
  next f hfam =>
    have hcode := famCode_of_decodeFamily _ f hfam
    split at h
    next hfn => exact .inr (.inl ⟨f, hcode, functionCount_le_of_decodeFunction_none f _ hfn⟩)
    next i hfn =>
      split at h
      · cases h
      next hwf =>
        obtain ⟨rfl, hfncode⟩ := fnCode_of_decodeFunction f (fnField w) i hfn
        refine .inr (.inr ⟨i, ?_, Bool.eq_false_iff.2 hwf⟩)
        rw [encode, ← hcode, ← hfncode, famField_append_fnField]

/-- A value that decodes to no command lies in R56's ranges; `decode_illegalValue` is the other direction. -/
theorem illegalValue_of_decode_error (p : Params) (w : CmdWord) (e : IllegalCmd) (h : decode p w = .error e) :
    IllegalValue p w := by
  have hw := toNat_eq_fields w
  have hfn := (fnField w).isLt
  rcases decode_error_cases p w e h with hfam | ⟨f, hfam, hcount⟩ | ⟨i, rfl, hwf⟩
  · have hlt := w.isLt
    unfold IllegalValue
    omega
  · rw [hfam] at hw
    unfold IllegalValue
    cases f <;> simp only [functionCount, famCode, BitVec.reduceToNat] at hw hcount <;> omega
  · rw [illegalValue_encode_iff]
    simpa [Instr.wellFormed] using hwf

theorem decodeTableWord_none_of_illegalValue (n : Nat) (h : IllegalValue Params.default (BitVec.ofNat 8 n)) :
    decodeTableWord 8 n = none := by
  obtain ⟨e, he⟩ := decode_illegalValue _ _ h
  simp [decodeTableWord, he]

/-- From 0x50 up every value is illegal (R56), so that only the five assigned families are to be counted value by value. -/
theorem illegalValues_count :
    ((List.range 256).filter (fun n => decodeTableWord 8 n = none)).length = 232 := by
  have hsplit : List.range 256 = List.range' 0 0x50 ++ List.range' 0x50 0xB0 := by
    rw [List.range_eq_range', List.range'_append_1]
  have hassigned : ((List.range' 0 0x50).filter (fun n => decodeTableWord 8 n = none)).length = 56 := by decide
  have hunassigned :
      (List.range' 0x50 0xB0).filter (fun n => decodeTableWord 8 n = none) = List.range' 0x50 0xB0 := by
    refine List.filter_eq_self.2 fun n hn => decide_eq_true (decodeTableWord_none_of_illegalValue n ?_)
    obtain ⟨hlo, hhi⟩ := List.mem_range'_1.1 hn
    have hn : (BitVec.ofNat 8 n).toNat = n := by
      rw [BitVec.toNat_ofNat]
      omega
    unfold IllegalValue
    omega
  rw [hsplit, List.filter_append, List.length_append, hassigned, hunassigned, List.length_range']

/-! ### The statements -/

/-- Settles O1: `decode_ok_cases` and `decode_encode` are the two directions. -/
theorem decodeEncodeAgree : Obligations.DecodeEncodeAgree := by
  intro p w i
  refine ⟨decode_ok_cases p w i, ?_⟩
  rintro ⟨rfl, hwf⟩
  exact decode_encode p i hwf

/-- Settles O3: the three reasons for a rejection are R56's ranges, and `illegalValues_count` counts them. -/
theorem illegalValuesExactly : Obligations.IllegalValuesExactly := by
  refine ⟨fun p w => ⟨?_, decode_illegalValue p w⟩, illegalValues_count⟩
  rintro ⟨e, he⟩
  exact illegalValue_of_decode_error p w e he

/-- Settles O2: each word is the encoding of its command, which the default instance has. -/
theorem decodeWordsSanity : Obligations.DecodeWordsSanity :=
  ⟨decode_encode _ .neg rfl, decode_encode _ .tou rfl, decode_encode _ .lte rfl, decode_encode _ .muls rfl,
    decode_encode _ .subp rfl⟩

end Sys2Proof.Machine
end

section
/-! PROOFS. The statements on every command (spec/10_state.md, spec/30_encoding.md section 2, spec/60_exceptions.md section 1). First
that every response fits its command; then when `exec` answers next and when it refuses, as equivalences; then the statements. -/

namespace Sys2Proof.Machine

/-! ### Every response fits its command -/

theorem rangeKind_mem_raisable (op : RangeOp) (d : RangeDir) (k : ErrorKind) (h : rangeKind op d = some k) :
    k ∈ raisable (rangeInstr op) := by
  cases op <;> cases d <;> cases h <;> decide

/-- A failed range check raises a kind of R119's table, and R170 lists every kind of that table for its command. -/
theorem mem_raisable_of_rangeInstr_err (op : RangeOp) (a b : Word) (k : ErrorKind)
    (h : responseOf (rangeInstr op) a b = .err k) : k ∈ raisable (rangeInstr op) := by
  obtain ⟨k', hchecked, habove, hbelow⟩ := responseOf_rangeInstr op a b
  rw [hchecked, rangeChecked] at h
  split at h <;> cases h
  next hout =>
    by_cases hlt : (maxMag : Int) < exactResult op a b
    · exact rangeKind_mem_raisable op .pos k (habove hlt)
    · exact rangeKind_mem_raisable op .neg k (hbelow (by omega))

/-- A response that is an error carries a kind of the command's row in R170's table. -/
theorem mem_raisable_of_responseOf_err (i : Instr) (a b : Word) (k : ErrorKind) (h : responseOf i a b = .err k) :
    k ∈ raisable i := by
  cases i with
  | norm | zero | one | iszero | isneg | neg | cmp | eq | lt | gt | lte | gte => cases h
  | abs =>
    rw [responseOf, absResponse_eq] at h
    cases h
  | tou =>
    rw [responseOf, touResponse_eq _ (normalize_canonical a)] at h
    split at h <;> cases h
    exact List.mem_singleton_self _
  | divs =>
    rw [responseOf, divsResponse_eq _ _ (normalize_canonical a)] at h
    split at h <;> cases h
    exact List.mem_singleton_self _
  | divp =>
    rw [responseOf, divpResponse_eq _ _ (normalize_canonical a)] at h
    split at h <;> cases h
    exact List.mem_singleton_self _
  | fromu => exact mem_raisable_of_rangeInstr_err .fromu a b k h
  | negfromu => exact mem_raisable_of_rangeInstr_err .negfromu a b k h
  | adds => exact mem_raisable_of_rangeInstr_err .adds a b k h
  | subs => exact mem_raisable_of_rangeInstr_err .subs a b k h
  | muls => exact mem_raisable_of_rangeInstr_err .muls a b k h
  | addp => exact mem_raisable_of_rangeInstr_err .addp a b k h
  | subp => exact mem_raisable_of_rangeInstr_err .subp a b k h
  | mulp => exact mem_raisable_of_rangeInstr_err .mulp a b k h

theorem boolWord_holds (b : Bool) : resultKindHolds .bool (boolWord b) = true := by cases b <;> decide

theorem orderingCode_holds (c : CmpResult) : resultKindHolds .ordering (orderingCode c) = true := by cases c <;> decide

/-- TOU returns a word only when it is not negative, so its number is at most MAX (R92). -/
theorem touResponse_ok_holds (a v : Word) (ha : Canonical a) (h : touResponse a = .ok v) :
    resultKindHolds .unsigned v = true := by
  unfold touResponse at h
  split at h
  · cases h
  next hneg =>
    cases h
    rcases canonical_cases a ha with ⟨-, -, hle, -⟩ | ⟨hneg', -⟩
    · exact decide_eq_true hle
    · exact absurd hneg' hneg

/-- A response that returns a word returns one of the command's result kind (R54). -/
theorem resultKindHolds_of_responseOf_ok (i : Instr) (a b v : Word) (h : responseOf i a b = .ok v) :
    resultKindHolds i.resultKind v = true := by
  have hcanonical := resultOf_responseOf_canonical i a b
  rw [h] at hcanonical
  cases i with
  | iszero | isneg | eq | lt | gt | lte | gte =>
    cases h
    exact boolWord_holds _
  | cmp =>
    cases h
    exact orderingCode_holds _
  | tou => exact touResponse_ok_holds _ v (normalize_canonical a) h
  | norm | zero | one | neg | abs | fromu | negfromu | adds | subs | muls | divs | addp | subp | mulp | divp =>
    exact decide_eq_true hcanonical

theorem fitsCommand_responseOf (i : Instr) (a b : Word) : fitsCommand i (responseOf i a b) = true := by
  cases h : responseOf i a b with
  | ok v => exact resultKindHolds_of_responseOf_ok i a b v h
  | err k => exact List.contains_iff_mem.2 (mem_raisable_of_responseOf_err i a b k h)

theorem illegalCommand_not_mem_raisable (i : Instr) : ErrorKind.illegalCommand ∉ raisable i := by cases i <;> decide

/-! ### The outcomes of `exec` -/

theorem exec_eq_respond_iff (i : Instr) (s : State) (r : Response) :
    exec i s = .next (respond r s) ↔ operandsOk s.params i s.a s.b = true ∧ responseOf i s.a s.b = r := by
  constructor
  · intro h
    obtain ⟨hok, hresponse⟩ := exec_next_cases i s _ h
    exact ⟨hok, (Option.some.inj (congrArg State.response hresponse)).symm⟩
  · rintro ⟨hok, rfl⟩
    exact exec_of_operandsOk i s hok

theorem exec_eq_refused_iff (i : Instr) (s : State) (e : Refusal) :
    exec i s = .refused e ↔ ¬ operandsOk s.params i s.a s.b = true ∧ e = .noncanonicalOperand := by
  by_cases hok : operandsOk s.params i s.a s.b = true
  · simp [exec_of_operandsOk i s hok, hok]
  · simp [exec_of_not_operandsOk i s hok, hok, eq_comm]

/-! ### Operands that do not matter, and operands that every instance accepts -/

theorem signedOk_of_canonical (p : Params) (w : Word) (h : Canonical w) : SignedOk p w := fun _ => h

theorem portOk_of_canonical (p : Params) (f : PortForm) (w : Word) (h : Canonical w) : portOk p f w = true := by
  cases f with
  | signed => exact (portOk_signed_iff p w).2 (signedOk_of_canonical p w h)
  | ignored | raw | scalar => rfl

theorem operandsOk_of_canonical (p : Params) (i : Instr) (a b : Word) (ha : Canonical a) (hb : Canonical b) :
    operandsOk p i a b = true := by
  rw [operandsOk, portOk_of_canonical p _ a ha, portOk_of_canonical p _ b hb]
  rfl

theorem portOk_congr (p : Params) (f : PortForm) (w x : Word) (h : f ≠ .ignored → x = w) :
    portOk p f x = portOk p f w := by
  cases f with
  | ignored => rfl
  | raw | signed | scalar => rw [h (by decide)]

theorem operandsOk_congr (p : Params) (i : Instr) (a b x y : Word) (hx : i.form.portA ≠ .ignored → x = a)
    (hy : i.form.portB ≠ .ignored → y = b) : operandsOk p i x y = operandsOk p i a b := by
  rw [operandsOk, operandsOk, portOk_congr p _ a x hx, portOk_congr p _ b y hy]

/-- The response reads no port that the form ignores (R52). -/
theorem responseOf_congr (i : Instr) (a b x y : Word) (hx : i.form.portA ≠ .ignored → x = a)
    (hy : i.form.portB ≠ .ignored → y = b) : responseOf i x y = responseOf i a b := by
  cases i with
  | zero | one => rfl
  | norm | iszero | isneg | neg | abs | fromu | negfromu | tou => rw [hx (by decide)]; rfl
  | cmp | eq | lt | gt | lte | gte | adds | subs | muls | divs | addp | subp | mulp | divp =>
    rw [hx (by decide), hy (by decide)]

/-! ### The statements -/

/-- Settles O38: an accepted command answers `responseOf`, which fits it. -/
theorem everyCommandCompletes : Obligations.EveryCommandCompletes :=
  fun i s hok => ⟨_, exec_of_operandsOk i s hok, fitsCommand_responseOf i s.a s.b⟩

/-- Settles O39: the next state is the old one with a response, by the inversion of `exec`. -/
theorem commandsChangeOnlyTheResponse : Obligations.CommandsChangeOnlyTheResponse := by
  intro i s t h
  obtain ⟨-, rfl⟩ := exec_next_cases i s t h
  exact ⟨rfl, rfl, rfl, rfl, rfl, rfl, _, rfl⟩

/-- Settles O41: the error is that of `responseOf`, and no row of the table lists IllegalCommand. -/
theorem onlyListedKindsAreRaised : Obligations.OnlyListedKindsAreRaised := by
  intro i s t k h herr
  obtain ⟨-, rfl⟩ := exec_next_cases i s t h
  have hmem := mem_raisable_of_responseOf_err i s.a s.b k (Option.some.inj herr)
  refine ⟨hmem, ?_⟩
  rintro rfl
  exact illegalCommand_not_mem_raisable i hmem

/-- Settles O43: neither the check of the operands nor the response reads an ignored port. -/
theorem ignoredPortsDoNotMatter : Obligations.IgnoredPortsDoNotMatter := by
  intro i s x y r hx hy
  have hok := operandsOk_congr s.params i s.a s.b x y hx hy
  have hresponse := responseOf_congr i s.a s.b x y hx hy
  refine ⟨(exec_eq_respond_iff i s r).trans (Iff.trans ?_ (exec_eq_respond_iff i { s with a := x, b := y } r).symm),
    fun e => (exec_eq_refused_iff i s e).trans (Iff.trans ?_ (exec_eq_refused_iff i { s with a := x, b := y } e).symm)⟩
  · rw [hok, hresponse]
  · rw [hok]

/-- Settles O44: canonical operands are accepted under every setting, and the response is a function of them alone. -/
theorem settingsAgreeOnCanonicalOperands : Obligations.SettingsAgreeOnCanonicalOperands := by
  intro i s m ha hb
  exact ⟨responseOf i s.a s.b, exec_of_operandsOk i s (operandsOk_of_canonical _ i _ _ ha hb),
    exec_of_operandsOk i { s with params := { s.params with noncanonical := m } } (operandsOk_of_canonical _ i _ _ ha hb)⟩

end Sys2Proof.Machine
end

section
/-! PROOFS. The statements on steps (spec/10_state.md section 2, spec/20_memory.md, spec/60_exceptions.md section 2,
spec/70_reset_and_hazards.md). First the state that a completed command leaves, and the inversion of `step`; then that every step
keeps the conforming state; then the other statements. -/

namespace Sys2Proof.Machine

/-! ### What a step answers -/

/-- The state after a command that completed with this response: the command is on the ports, its response on STATUS and
RESULT, and both at the end of the host's list. `step_of_answerTo_ok` ties it to the model. -/
def completed (s : State) (c : Command) (rest : List HostAction) (r : Response) : State :=
  { s with cmd := c.cmd, a := c.a, b := c.b, pending := rest, response := some r, transcript := s.transcript ++ [(c, r)] }

theorem step_of_answerTo_ok (s : State) (c : Command) (rest : List HostAction) (r : Response)
    (h : s.pending = .issue c :: rest) (hr : answerTo s.params c = .ok r) : step s = .next (completed s c rest r) := by
  rw [step_issue_eq s c rest h, hr]
  rfl

theorem step_of_answerTo_error (s : State) (c : Command) (rest : List HostAction) (e : Refusal)
    (h : s.pending = .issue c :: rest) (he : answerTo s.params c = .error e) : step s = .refused e := by
  rw [step_issue_eq s c rest h, he]
  rfl

/-- The inversion of the step of an issued command: a next state exists only where the command has a response. -/
theorem step_issue_next_cases (s t : State) (c : Command) (rest : List HostAction) (h : s.pending = .issue c :: rest)
    (ht : step s = .next t) : ∃ r, answerTo s.params c = .ok r ∧ t = completed s c rest r := by
  cases hr : answerTo s.params c with
  | ok r =>
    rw [step_of_answerTo_ok s c rest r h hr] at ht
    cases ht
    exact ⟨r, rfl, rfl⟩
  | error e =>
    rw [step_of_answerTo_error s c rest e h hr] at ht
    cases ht

theorem step_idle (s : State) (h : s.pending = []) : step s = .next s := by simp [step, fetch_idle s h]

theorem step_reset (s : State) (rest : List HostAction) (h : s.pending = .reset :: rest) :
    step s = .next { s with response := none, pending := rest } := by
  simp [step, fetch_reset s rest h]

theorem step_resetDuring (s : State) (c : Command) (rest : List HostAction) (h : s.pending = .resetDuring c :: rest) :
    step s = .next { s with cmd := c.cmd, a := c.a, b := c.b, response := none, pending := rest } := by
  simp [step, fetch_resetDuring s c rest h]

/-- The inversion of `step`: nothing happens, a reset leaves no response, or an issued command completes. -/
theorem step_next_cases (s t : State) (h : step s = .next t) :
    t = s ∨ (t.response = none ∧ t.params = s.params ∧ t.transcript = s.transcript) ∨
    ∃ c rest r, s.pending = .issue c :: rest ∧ answerTo s.params c = .ok r ∧ t = completed s c rest r := by
  cases hp : s.pending with
  | nil =>
    rw [step_idle s hp] at h
    cases h
    exact .inl rfl
  | cons action rest =>
    cases action with
    | issue c =>
      obtain ⟨r, hr, ht⟩ := step_issue_next_cases s t c rest hp h
      exact .inr (.inr ⟨c, rest, r, rfl, hr, ht⟩)
    | reset =>
      rw [step_reset s rest hp] at h
      cases h
      exact .inr (.inl ⟨rfl, rfl, rfl⟩)
    | resetDuring c =>
      rw [step_resetDuring s c rest hp] at h
      cases h
      exact .inr (.inl ⟨rfl, rfl, rfl⟩)

/-! ### The conforming state -/

theorem conformingState_iff (s : State) :
    conformingState s = true ↔
      (∀ e ∈ s.transcript, conforms s.params e.1 e.2 = true) ∧ portsMatchTranscript s = true := by
  rw [conformingState, Bool.and_eq_true, List.all_eq_true]

/-- What the unit answers fits what the host issued, legal or not (R54, R170, R176). -/
theorem conforms_of_answerTo_ok (p : Params) (c : Command) (r : Response) (h : answerTo p c = .ok r) :
    conforms p c r = true := by
  cases hd : decode p c.cmd with
  | ok i =>
    rw [answerTo_legal p c i hd] at h
    split at h <;> cases h
    simp only [conforms, hd, fitsCommand_responseOf]
  | error e =>
    cases hp : p.illegalPolicy with
    | status =>
      rw [answerTo_illegal_status p c e hd hp] at h
      cases h
      simp [conforms, hd, hp]
    | refuse =>
      rw [answerTo_illegal_refuse p c e hd hp] at h
      cases h

theorem portsMatchTranscript_of_no_response (s : State) (h : s.response = none) : portsMatchTranscript s = true := by
  simp [portsMatchTranscript, h]

theorem portsMatchTranscript_completed (s : State) (c : Command) (rest : List HostAction) (r : Response) :
    portsMatchTranscript (completed s c rest r) = true := by
  simp [portsMatchTranscript, completed]

/-- A completed command adds one response to the host's list; it shows on the ports, and the list conforms if it does. -/
theorem conformingState_completed (s : State) (c : Command) (rest : List HostAction) (r : Response)
    (hs : conformingState s = true) (hr : conforms s.params c r = true) :
    conformingState (completed s c rest r) = true := by
  obtain ⟨hlist, -⟩ := (conformingState_iff s).1 hs
  refine (conformingState_iff _).2 ⟨fun e he => ?_, portsMatchTranscript_completed s c rest r⟩
  rcases List.mem_append.1 he with hold | hnew
  · exact hlist e hold
  · rw [List.mem_singleton.1 hnew]
    exact hr

/-- Settles O53: by the inversion of `step`; only a completed command adds a response, and it is that of `answerTo`. -/
theorem stepKeepsConformingState : Obligations.StepKeepsConformingState := by
  intro s t hs h
  rcases step_next_cases s t h with rfl | ⟨hnone, hparams, htranscript⟩ | ⟨c, rest, r, -, hr, rfl⟩
  · exact hs
  · obtain ⟨hlist, -⟩ := (conformingState_iff s).1 hs
    rw [conformingState_iff, hparams, htranscript]
    exact ⟨hlist, portsMatchTranscript_of_no_response t hnone⟩
  · exact conformingState_completed s c rest r hs (conforms_of_answerTo_ok s.params c r hr)

/-! ### The other statements -/

/-- Settles O46: the three checks are the three branches of `answerTo`. -/
theorem checkOrder : Obligations.CheckOrder := by
  intro s c rest h
  refine ⟨fun e hd => ⟨fun hstatus => ?_, fun hrefuse => ?_⟩, fun i hd => ⟨fun hbad => ?_, fun hok => ?_⟩⟩
  · exact step_of_answerTo_ok s c rest _ h (answerTo_illegal_status s.params c e hd hstatus)
  · exact step_of_answerTo_error s c rest _ h (answerTo_illegal_refuse s.params c e hd hrefuse)
  · refine step_of_answerTo_error s c rest _ h ?_
    rw [answerTo_legal s.params c i hd, hbad]
    rfl
  · refine ⟨_, fitsCommand_responseOf i c.a c.b, step_of_answerTo_ok s c rest _ h ?_⟩
    rw [answerTo_legal s.params c i hd, if_pos hok]

/-- Settles O49: the parameters never change, so each command has the same answer in both places. -/
theorem orderOfCommandsDoesNotMatter : Obligations.OrderOfCommandsDoesNotMatter := by
  intro s t u c d rest h hst htu
  obtain ⟨q, hq, rfl⟩ := step_issue_next_cases s t c _ h hst
  obtain ⟨r, hr, rfl⟩ := step_issue_next_cases _ u d rest rfl htu
  exact ⟨q, r, _, _, List.append_assoc .., step_of_answerTo_ok _ d (.issue c :: rest) r rfl hr,
    step_of_answerTo_ok _ c rest q rfl hq, List.append_assoc ..⟩

/-- Settles O50: the two reset actions are answered without decoding, and a command's answer does not depend on the response
that the state shows. -/
theorem resetRule : Obligations.ResetRule := by
  refine fun s rest => ⟨step_reset s rest, fun c => step_resetDuring s c rest, fun c t h ht => ?_⟩
  obtain ⟨r, hr, rfl⟩ := step_issue_next_cases s t c rest h ht
  exact ⟨_, step_of_answerTo_ok { s with response := none } c rest r h hr, rfl⟩

/-- Settles O52: by the inversion of `step`. -/
theorem parametersAreFixed : Obligations.ParametersAreFixed := by
  intro s t h
  rcases step_next_cases s t h with rfl | ⟨-, hparams, -⟩ | ⟨c, rest, r, -, -, rfl⟩
  · rfl
  · exact hparams
  · rfl

/-- Settles O45: `step` decodes the driven command and records what `exec` answers. -/
theorem stepRunsDecodedCommand : Obligations.StepRunsDecodedCommand := by
  intro s c rest i h hd
  rw [step_issue_legal s c rest i h hd]
  refine ⟨fun r hr => ?_, fun e he => ?_⟩
  · exact congrArg finish hr
  · exact congrArg finish he

/-- Settles O51: the host drives nothing, so `fetch` finds the unit idle. -/
theorem idleStepChangesNothing : Obligations.IdleStepChangesNothing := step_idle

/-- Settles O54: the host's list is empty and no response exists. -/
theorem resetConforms : Obligations.ResetConforms :=
  ⟨(conformingState_iff _).2 ⟨List.forall_mem_nil _, portsMatchTranscript_of_no_response _ rfl⟩, rfl, rfl⟩

end Sys2Proof.Machine
end

section
/-! PROOFS. The laws of the families and what is left of their rules (spec/00_scope.md section 5, spec/40_normalizer.md section 3,
spec/41_conversion.md, spec/42_comparison.md, spec/43_overflow_detector.md, spec/45_pair_arith.md). First what the commands answer on
canonical words, so that a law about two commands is one about integers; then the statements. -/

namespace Sys2Proof.Machine

/-! ### The valid range and its words -/

theorem inRange_neg (n : Int) (h : InRange n) : InRange (-n) := ⟨neg_le_neg h.2, neg_le.1 h.1⟩

theorem inRange_abs (n : Int) (h : InRange n) : InRange |n| := by
  rcases abs_choice n with hn | hn <;> rw [hn]
  · exact h
  · exact inRange_neg n h

theorem wordOfInt_canonical (n : Int) (h : InRange n) : Canonical (wordOfInt n) := by
  obtain ⟨hlo, hhi⟩ := h
  have hcompose : compose (decide (n < 0)) n.natAbs = wordOfInt n := by
    rw [compose_eq_wordOfInt _ _ (by omega)]
    congr 1
    simp only [decide_eq_true_eq]
    omega
  rw [← hcompose]
  exact compose_canonical _ _

theorem canonical_of_le_maxMag (w : Word) (h : w.toNat ≤ maxMag) : Canonical w :=
  (canonical_iff w).2 (h.trans_lt maxMag_lt_signBit).ne

/-! ### The commands on canonical words -/

theorem exec_neg_of_canonical (s : State) (h : Canonical s.a) :
    exec .neg s = .next (respond (.ok (wordOfInt (-val s.a))) s) := by
  have hexec := (negRule.2 s).1 (signedOk_of_canonical _ _ h)
  rwa [normalize_of_canonical s.a h] at hexec

theorem exec_abs_of_canonical (s : State) (h : Canonical s.a) :
    exec .abs s = .next (respond (.ok (wordOfInt |val s.a|)) s) := by
  have hexec := (absRule.2 s).1 (signedOk_of_canonical _ _ h)
  rwa [normalize_of_canonical s.a h] at hexec

theorem exec_iszero_of_canonical (s : State) (h : Canonical s.a) :
    exec .iszero s = .next (respond (.ok (if val s.a = 0 then 1#64 else 0#64)) s) := by
  have hexec := (iszeroRule.2 s).1 (signedOk_of_canonical _ _ h)
  rwa [normalize_of_canonical s.a h] at hexec

theorem exec_isneg_of_canonical (s : State) (h : Canonical s.a) :
    exec .isneg s = .next (respond (.ok (if val s.a < 0 then 1#64 else 0#64)) s) := by
  have hexec := (isnegRule.2 s).1 (signedOk_of_canonical _ _ h)
  rwa [normalize_of_canonical s.a h] at hexec

/-- TOU returns a non-negative canonical word unchanged (R92). -/
theorem exec_tou_of_nonneg (s : State) (h : Canonical s.a) (hnonneg : 0 ≤ val s.a) :
    exec .tou s = .next (respond (.ok s.a) s) := by
  rw [← normalize_of_canonical s.a h] at hnonneg
  have hexec := (touRule.2 s).1 (signedOk_of_canonical _ _ h) hnonneg
  rwa [normalize_of_canonical s.a h, wordOfInt_val s.a h] at hexec

theorem exec_of_canonical (i : Instr) (s : State) (ha : Canonical s.a) (hb : Canonical s.b) :
    exec i s = .next (respond (responseOf i s.a s.b) s) :=
  exec_of_operandsOk i s (operandsOk_of_canonical _ i _ _ ha hb)

theorem exec_addp_of_canonical (s : State) (ha : Canonical s.a) (hb : Canonical s.b) :
    exec .addp s = .next (respond (rangeChecked (sumKind (val s.a + val s.b)) (val s.a + val s.b)) s) := by
  rw [exec_of_canonical .addp s ha hb, responseOf, normalize_of_canonical _ ha, normalize_of_canonical _ hb,
    addpResponse_checked _ _ ha hb]

theorem exec_subp_of_canonical (s : State) (ha : Canonical s.a) (hb : Canonical s.b) :
    exec .subp s = .next (respond (rangeChecked (sumKind (val s.a - val s.b)) (val s.a - val s.b)) s) := by
  rw [exec_of_canonical .subp s ha hb, responseOf, normalize_of_canonical _ ha, normalize_of_canonical _ hb,
    subpResponse_checked _ _ ha hb]

/-! ### Words and predicates -/

/-- Settles O4: `val` and `wordOfInt` are inverse to each other between the canonical words and the valid range. -/
theorem canonicalWordsAreIntegers : Obligations.CanonicalWordsAreIntegers :=
  ⟨fun w h => ⟨val_inRange w h, wordOfInt_val w h⟩, fun n h => ⟨wordOfInt_canonical n h, val_wordOfInt n h⟩⟩

/-- Settles O7: the check by floor division is the check on the product. -/
theorem mulFitsExact : Obligations.MulFitsExact := by
  intro m s
  rw [mulFits_eq_fitsMag, fitsMag_iff]

/-! ### Family 0x0 -/

/-- Settles O11: ONE reads no port. -/
theorem oneRule : Obligations.OneRule :=
  ⟨rfl, fun s => exec_of_no_signed_port .one (.inl rfl) s _ rfl⟩

/-- Settles O16: the value is negated twice. -/
theorem negInvolution : Obligations.NegInvolution := by
  intro s h
  have hrange := inRange_neg _ (val_inRange s.a h)
  refine ⟨wordOfInt (-val s.a), exec_neg_of_canonical s h, ?_⟩
  rw [exec_neg_of_canonical { s with a := wordOfInt (-val s.a) } (wordOfInt_canonical _ hrange), val_wordOfInt _ hrange,
    neg_neg, wordOfInt_val s.a h]
  rfl

/-- Settles O17: an absolute value is not below 0. -/
theorem absNonNegative : Obligations.AbsNonNegative := by
  intro s h
  have hrange := inRange_abs _ (val_inRange s.a h)
  refine ⟨wordOfInt |val s.a|, exec_abs_of_canonical s h, ?_⟩
  rw [exec_isneg_of_canonical { s with a := wordOfInt |val s.a| } (wordOfInt_canonical _ hrange), val_wordOfInt _ hrange,
    if_neg (abs_nonneg (val s.a)).not_gt]
  rfl

/-- Settles O57: the words of NEG and ABS are those of integers in the valid range, and 0 is the only canonical word of value 0. -/
theorem normalizerFamilyLaws : Obligations.NormalizerFamilyLaws := by
  refine ⟨fun s h => ?_, fun w => normalize_of_canonical _ (normalize_canonical w)⟩
  have hneg := inRange_neg _ (val_inRange s.a h)
  have habs := inRange_abs _ (val_inRange s.a h)
  refine ⟨_, _, _, ⟨exec_neg_of_canonical s h, wordOfInt_canonical _ hneg, val_wordOfInt _ hneg⟩,
    ⟨exec_abs_of_canonical s h, wordOfInt_canonical _ habs, val_wordOfInt _ habs⟩, exec_iszero_of_canonical s h, ?_⟩
  rw [← val_eq_zero_iff s.a h]
  split <;> simp [*]

/-! ### Family 0x1 -/

/-- Settles O21: a scalar up to MAX is its own word, which is canonical and not negative. -/
theorem conversionRoundTrip : Obligations.ConversionRoundTrip := by
  intro s hle
  have hval := val_of_le_maxMag s.a hle
  exact ⟨s.a, (fromuRule.2 s).1 hle, exec_tou_of_nonneg s (canonical_of_le_maxMag s.a hle) (by omega)⟩

/-- Settles O22: both commands are split at MAX, and up to MAX the scalar is the value of its own word. -/
theorem negfromuIsNegOfFromu : Obligations.NegfromuIsNegOfFromu := by
  intro s
  obtain ⟨hfromu, hfromuErr⟩ := fromuRule.2 s
  obtain ⟨hnegfromu, hnegfromuErr⟩ := negfromuRule.2 s
  rcases Nat.lt_or_ge maxMag s.a.toNat with habove | hle
  · rw [hfromuErr habove, hnegfromuErr habove]
    refine ⟨fun v h => ?_, fun k h => ?_⟩ <;> cases h
    rfl
  · rw [hfromu hle, hnegfromu hle]
    refine ⟨fun v h => ?_, fun k h => ?_⟩ <;> cases h
    refine ⟨_, exec_neg_of_canonical s (canonical_of_le_maxMag s.a hle), ?_⟩
    rw [val_of_le_maxMag s.a hle]

/-! ### Family 0x2 -/

/-- Settles O26: the three answers are the three cases of the order of the values. -/
theorem orderingTotality : Obligations.OrderingTotality := by
  intro s ha hb
  obtain ⟨hlt, hgt, -, -⟩ := (orderPredicatesRule.2 s).1 ha hb
  obtain ⟨heq, -⟩ := (eqRule.2 s).1 ha hb
  refine ⟨_, _, _, hlt, heq, hgt, ?_⟩
  rcases lt_trichotomy (val (normalize s.a)) (val (normalize s.b)) with h | h | h
  · exact .inl ⟨if_pos h, if_neg h.ne, if_neg h.not_gt⟩
  · exact .inr (.inl ⟨if_neg h.not_lt, if_pos h, if_neg h.not_gt⟩)
  · exact .inr (.inr ⟨if_neg h.not_gt, if_neg h.ne', if_pos h⟩)

/-! ### Family 0x4 -/

/-- The responses of ADDP and MULP are range checks of a sum and of a product. -/
theorem responseOf_swap (i : Instr) (hi : i = .addp ∨ i = .mulp) (a b : Word) : responseOf i b a = responseOf i a b := by
  have ha := normalize_canonical a
  have hb := normalize_canonical b
  rcases hi with rfl | rfl
  · rw [responseOf, responseOf, addpResponse_checked _ _ ha hb, addpResponse_checked _ _ hb ha, add_comm]
  · rw [responseOf, responseOf, mulpResponse_checked, mulpResponse_checked, mul_comm]

theorem operandsOk_swap (p : Params) (i : Instr) (h : i.form = .ss) (a b : Word) :
    operandsOk p i b a = operandsOk p i a b := by
  rw [Bool.eq_iff_iff, operandsOk_pair_iff p i _ _ h, operandsOk_pair_iff p i _ _ h, and_comm]

/-- Settles O35: neither the check of the operands nor the response depends on their order. -/
theorem pairCommutativity : Obligations.PairCommutativity := by
  intro i s r hi
  have hform : i.form = .ss := by rcases hi with rfl | rfl <;> rfl
  refine (exec_eq_respond_iff i s r).trans (Iff.trans ?_ (exec_eq_respond_iff i { s with a := s.b, b := s.a } r).symm)
  rw [operandsOk_swap s.params i hform s.a s.b, responseOf_swap i hi s.a s.b]

/-- Settles O36: the sum of the two values is 0, which is in range. -/
theorem additiveInverse : Obligations.AdditiveInverse := by
  intro s h
  have hrange := inRange_neg _ (val_inRange s.a h)
  refine ⟨wordOfInt (-val s.a), exec_neg_of_canonical s h, ?_⟩
  rw [exec_addp_of_canonical { s with b := wordOfInt (-val s.a) } h (wordOfInt_canonical _ hrange), val_wordOfInt _ hrange,
    add_neg_cancel]
  rfl

/-- Settles O37: both commands check the same integer, with the kind of its direction. -/
theorem subpIsAddpOfNeg : Obligations.SubpIsAddpOfNeg := by
  intro s ha hb
  have hrange := inRange_neg _ (val_inRange s.b hb)
  refine ⟨wordOfInt (-val s.b), _, exec_neg_of_canonical { s with a := s.b } hb,
    exec_addp_of_canonical { s with b := wordOfInt (-val s.b) } ha (wordOfInt_canonical _ hrange), ?_⟩
  rw [val_wordOfInt _ hrange, ← sub_eq_add_neg]
  exact exec_subp_of_canonical s ha hb

end Sys2Proof.Machine
end

section
/-! PROOFS. The statements of spec/30_encoding.md section 5. First that the digits of `hexText` read back as the number they were
written from; then the literals on each kind of port. -/

namespace Sys2Proof.Machine

/-! ### Hexadecimal text -/

theorem hexDigit_hexChar (d : Nat) (h : d < 16) : hexDigit (hexChar d) = some d := by
  interval_cases d <;> rfl

theorem digitsFrom_append (base : Nat) (digit : Char → Option Nat) (acc : Nat) (xs ys : List Char) :
    digitsFrom base digit acc (xs ++ ys) =
      (digitsFrom base digit acc xs).bind fun n => digitsFrom base digit n ys := by
  induction xs generalizing acc with
  | nil => rfl
  | cons c cs ih =>
    rw [List.cons_append, digitsFrom, digitsFrom]
    cases digit c with
    | none => rfl
    | some d => exact ih _

theorem digitsFrom_singleton (base : Nat) (digit : Char → Option Nat) (acc d : Nat) (c : Char) (h : digit c = some d) :
    digitsFrom base digit acc [c] = some (acc * base + d) := by
  simp [digitsFrom, h]

/-- The text of the last k digits of a number below 16^k reads back as that number. -/
theorem digitsFrom_hexText (k n : Nat) (h : n < 16 ^ k) : digitsFrom 16 hexDigit 0 (hexText k n) = some n := by
  induction k generalizing n with
  | zero =>
    rw [Nat.lt_one_iff.1 h]
    rfl
  | succ k ih =>
    have hdiv : n / 16 < 16 ^ k := Nat.div_lt_of_lt_mul (by rwa [← pow_succ'])
    have hdigit := hexDigit_hexChar (n % 16) (Nat.mod_lt n (by decide))
    rw [hexText, digitsFrom_append, ih _ hdiv, Option.bind_some, digitsFrom_singleton _ _ _ _ _ hdigit, Nat.div_add_mod']

theorem length_hexText (k n : Nat) : (hexText k n).length = k := by
  induction k generalizing n with
  | zero => rfl
  | succ k ih => rw [hexText, List.length_append, ih, List.length_singleton]

theorem number_hexText (k n : Nat) (hpos : 0 < k) (h : n < 16 ^ k) : number 16 hexDigit (hexText k n) = some n := by
  have hne : hexText k n ≠ [] := List.ne_nil_of_length_pos (by rwa [length_hexText])
  rw [number, if_neg (mt List.isEmpty_iff.1 hne), digitsFrom_hexText k n h]

theorem parseLiteral_hexText (k n : Nat) (hpos : 0 < k) (h : n < 16 ^ k) :
    parseLiteral ('0' :: 'x' :: hexText k n) = some (.hex k n) := by
  rw [parseLiteral, number_hexText k n hpos h, length_hexText]
  rfl

/-! ### Literals on a port -/

theorem assembleSigned_dec (minus : Bool) (n : Nat) (h : n ≤ maxMag) :
    assembleSigned (.dec minus n) = some (wordOfInt (signedInt minus n)) := if_pos h

theorem assembleSigned_dec_above (minus : Bool) (n : Nat) (h : maxMag < n) : assembleSigned (.dec minus n) = none :=
  if_neg (Nat.not_le.2 h)

theorem assembleScalar_dec (n : Nat) (h : n < 2 ^ 64) : assembleScalar (.dec false n) = some (BitVec.ofNat 64 n) :=
  if_pos ⟨rfl, h⟩

theorem assembleScalar_dec_above (n : Nat) (h : 2 ^ 64 ≤ n) : assembleScalar (.dec false n) = none :=
  if_neg fun hfits => Nat.not_lt.2 h hfits.2

theorem assembleScalar_dec_minus (n : Nat) : assembleScalar (.dec true n) = none := by simp [assembleScalar]

theorem assembleSigned_hex (digits n : Nat) (h : digits ≤ 16) :
    assembleSigned (.hex digits n) = some (BitVec.ofNat 64 n) := if_pos h

theorem assembleScalar_hex (digits n : Nat) (h : n < 2 ^ 64) :
    assembleScalar (.hex digits n) = some (BitVec.ofNat 64 n) := if_pos h

/-! ### The statements -/

/-- Settles O55: the 16 digits read back as the word's number, which fits in every port. -/
theorem hexLiteralsAssembleAsWritten : Obligations.HexLiteralsAssembleAsWritten := by
  intro w
  have hw : BitVec.ofNat 64 w.toNat = w := BitVec.ofNat_toNat ..
  refine ⟨.hex 16 w.toNat, parseLiteral_hexText 16 w.toNat (by decide) w.isLt, ?_, ?_⟩
  · rw [assembleSigned_hex 16 _ le_rfl, hw]
  · rw [assembleScalar_hex 16 _ w.isLt, hw]

/-- Settles O56: on a signed port the literal is the word of its integer, on a scalar port its number. -/
theorem decimalLiteralsAssemble : Obligations.DecimalLiteralsAssemble := by
  intro n
  refine ⟨fun hle => ?_, fun habove => ?_, assembleScalar_dec n, assembleScalar_dec_above n, assembleScalar_dec_minus n⟩
  · have hpos := (inRange_signedInt_iff false n).2 hle
    have hneg := (inRange_signedInt_iff true n).2 hle
    exact ⟨_, _, assembleSigned_dec false n hle, wordOfInt_canonical _ hpos, val_wordOfInt _ hpos,
      assembleSigned_dec true n hle, wordOfInt_canonical _ hneg, val_wordOfInt _ hneg⟩
  · exact ⟨assembleSigned_dec_above false n habove, assembleSigned_dec_above true n habove⟩

end Sys2Proof.Machine
end
